-- ==== Sys2Proof/Word.lean ====
section
/-! DEFINITION. The byte: every register value, memory cell, opcode and operand is one (R7, R20, R33). -/

namespace Sys2Proof

/-- An unsigned 8-bit quantity, the only datum of this ISA (R7: "no value in this ISA is interpreted as signed"). -/
abbrev Byte := BitVec 8

end Sys2Proof
end

