-- ==== Sys2Proof/Config.lean ====
section
/-! DEFINITION. The implementation parameters of R6 at the values the hardware in scope takes. The spec leaves no value
open (R123), so this file holds no free value. -/

namespace Sys2Proof

/-- `MEM_SIZE` (R6): 256 for the hardware in scope. DESIGN CHOICE (log 1): the admitted range 1..256 is not a parameter of
this model. -/
def Config.memSize : Nat := 256

/-- `NREGS` (R6). -/
abbrev Config.nregs : Nat := 8

/-- `SP_EMPTY` (R6): the stack pointer value that means an empty stack. -/
def Config.spEmpty : Byte := 0xF4#8

/-- `PC_INIT` (R6). -/
def Config.pcInit : Nat := 0

/-- `LOAD_BASE` (R6): the address of the first loaded byte. -/
def Config.loadBase : Nat := 0

/-- A register number `0 ≤ i < NREGS` (R8, R20). -/
abbrev RegIdx := Fin Config.nregs

/-- `SP_INDEX` (R6, R23): the register used as the stack pointer. -/
def Config.spIndex : RegIdx := 7

/-- What a memory cell that nothing has written reads as: memory is zeroed at reset (R33, R270). -/
def Config.unlisted : Byte := 0#8

end Sys2Proof
end

