-- ==== Sys2Proof/Syntax.lean ====
section
/-! DEFINITION. The 21 instructions of the opcode map (R86), with the operand bytes their formats give them (R82). -/

namespace Sys2Proof

/-- The 21 opcodes by name (R86). -/
inductive Op where
  | hlt | ret
  | push | pop | prn | call | jmp | jeq | jne
  | not | ldi
  | add | sub | mul | div | cmp | and | or | xor | shl | shr
deriving DecidableEq, Repr

/-- The five formats (R82). -/
inductive Format where
  | f0    -- opcode
  | f1r   -- opcode, register
  | f2ri  -- opcode, register, immediate
  | f2rr  -- opcode, register, register
  | f2ru  -- opcode, register, unused byte
deriving DecidableEq, Repr

/-- An instruction. A register operand is the WHOLE operand byte, unmasked (R83): any byte is a legal encoding there
(R89), and a byte of 8 or more is a fault of the step that validates it (R115), so the byte is kept as it was fetched. -/
inductive Instr where
  | hlt
  | ret
  | push (a : Byte)
  | pop  (a : Byte)
  | prn  (a : Byte)
  | call (a : Byte)
  | jmp  (a : Byte)
  | jeq  (a : Byte)
  | jne  (a : Byte)
  | not  (a u : Byte)
  | ldi  (a i : Byte)
  | add  (a b : Byte)
  | sub  (a b : Byte)
  | mul  (a b : Byte)
  | div  (a b : Byte)
  | cmp  (a b : Byte)
  | and  (a b : Byte)
  | or   (a b : Byte)
  | xor  (a b : Byte)
  | shl  (a b : Byte)
  | shr  (a b : Byte)
deriving DecidableEq, Repr

end Sys2Proof
end

