-- ==== Sys2Proof/WellFormed.lean ====
section
/-! DEFINITION. Which instructions name registers that exist (R21, R83). -/

namespace Sys2Proof

/-- A register operand byte names a register exactly when it is below `NREGS` (R83). -/
def regByteOk (a : Byte) : Bool := decide (a.toNat < Config.nregs)

/-- The register operand fields of an instruction, in the order they are validated: `a`, then `b` (R115). The immediate of
LDI and the unused byte of NOT are no register fields. -/
def Instr.regFields : Instr → List Byte
  | .hlt | .ret => []
  | .push a | .pop a | .prn a | .call a | .jmp a | .jeq a | .jne a => [a]
  | .not a _ | .ldi a _ => [a]
  | .add a b | .sub a b | .mul a b | .div a b | .cmp a b => [a, b]
  | .and a b | .or a b | .xor a b | .shl a b | .shr a b => [a, b]

/-- Every register field names a register. An ill-formed instruction is still an encoding (R89): running it raises
InvalidRegister. -/
def Instr.wellFormed (i : Instr) : Bool := i.regFields.all regByteOk

end Sys2Proof
end

