-- ==== Sys2Proof/Decode.lean ====
section
/-! DEFINITION. The opcode map (R86), the decoder (total on any bytes, rejecting by name) and the encoder (R80 to R90). -/

namespace Sys2Proof

/-- Every opcode, in the order of the opcode map (R86). -/
def Op.all : List Op :=
  [.hlt, .ret, .push, .pop, .prn, .call, .jmp, .jeq, .jne, .not, .ldi] ++
  [.add, .sub, .mul, .div, .cmp, .and, .or, .xor, .shl, .shr]

/-- The opcode byte (R86). -/
def Op.code : Op → Byte
  | .hlt  => 0x01#8
  | .ret  => 0x11#8
  | .push => 0x45#8
  | .pop  => 0x46#8
  | .prn  => 0x47#8
  | .call => 0x50#8
  | .jmp  => 0x54#8
  | .jeq  => 0x55#8
  | .jne  => 0x56#8
  | .not  => 0x69#8
  | .ldi  => 0x82#8
  | .add  => 0xA0#8
  | .sub  => 0xA1#8
  | .mul  => 0xA2#8
  | .div  => 0xA3#8
  | .cmp  => 0xA7#8
  | .and  => 0xA8#8
  | .or   => 0xAA#8
  | .xor  => 0xAB#8
  | .shl  => 0xAC#8
  | .shr  => 0xAD#8

/-- The format of each opcode (R82, R86). NOT has two operand bytes (conflict C1). -/
def Op.format : Op → Format
  | .hlt | .ret => .f0
  | .push | .pop | .prn | .call | .jmp | .jeq | .jne => .f1r
  | .not => .f2ru
  | .ldi => .f2ri
  | .add | .sub | .mul | .div | .cmp => .f2rr
  | .and | .or | .xor | .shl | .shr => .f2rr

/-- How many operand bytes follow the opcode (R82). -/
def Format.operands : Format → Nat
  | .f0 => 0
  | .f1r => 1
  | .f2ri | .f2rr | .f2ru => 2

/-- The operand count of an opcode (R86). -/
def Op.operands (o : Op) : Nat := o.format.operands

/-- The length in bytes: `1 + n` (R80). -/
def Op.length (o : Op) : Nat := 1 + o.operands

/-- The decoder's lookup, on all 8 bits of the opcode byte (R86, R113). -/
def Op.ofCode (c : Byte) : Option Op := Op.all.find? (fun o => o.code == c)

/-- The opcode of an instruction. -/
def Instr.op : Instr → Op
  | .hlt => .hlt
  | .ret => .ret
  | .push _ => .push
  | .pop _ => .pop
  | .prn _ => .prn
  | .call _ => .call
  | .jmp _ => .jmp
  | .jeq _ => .jeq
  | .jne _ => .jne
  | .not _ _ => .not
  | .ldi _ _ => .ldi
  | .add _ _ => .add
  | .sub _ _ => .sub
  | .mul _ _ => .mul
  | .div _ _ => .div
  | .cmp _ _ => .cmp
  | .and _ _ => .and
  | .or _ _ => .or
  | .xor _ _ => .xor
  | .shl _ _ => .shl
  | .shr _ _ => .shr

/-- The instruction an opcode makes of its operand bytes `byte1` and `byte2` (R81); a byte the format does not have is not
looked at. -/
def Op.build (o : Op) (byte1 byte2 : Byte) : Instr :=
  match o with
  | .hlt => .hlt
  | .ret => .ret
  | .push => .push byte1
  | .pop => .pop byte1
  | .prn => .prn byte1
  | .call => .call byte1
  | .jmp => .jmp byte1
  | .jeq => .jeq byte1
  | .jne => .jne byte1
  | .not => .not byte1 byte2
  | .ldi => .ldi byte1 byte2
  | .add => .add byte1 byte2
  | .sub => .sub byte1 byte2
  | .mul => .mul byte1 byte2
  | .div => .div byte1 byte2
  | .cmp => .cmp byte1 byte2
  | .and => .and byte1 byte2
  | .or => .or byte1 byte2
  | .xor => .xor byte1 byte2
  | .shl => .shl byte1 byte2
  | .shr => .shr byte1 byte2

/-- Why a list of bytes is no instruction. -/
inductive DecodeError where
  /-- There is no opcode byte. -/
  | noOpcode
  /-- The opcode byte is not in the map: IllegalInstruction (R88). -/
  | illegal (code : Byte)
  /-- The bytes end before the operand bytes of this opcode do (R114). -/
  | truncated (op : Op)
deriving DecidableEq, Repr

/-- Reads one instruction and answers the bytes after it (R90): the opcode byte alone gives the length. -/
def decode : List Byte → Except DecodeError (Instr × List Byte)
  | [] => .error .noOpcode
  | c :: rest =>
    match Op.ofCode c with
    | none => .error (.illegal c)
    | some o =>
      match o.operands, rest with
      | 0, rest => .ok (o.build 0#8 0#8, rest)
      | 1, b1 :: rest => .ok (o.build b1 0#8, rest)
      | 2, b1 :: b2 :: rest => .ok (o.build b1 b2, rest)
      | _, _ => .error (.truncated o)

/-- The operand bytes of an instruction, in encoding order (R81, R82). -/
def Instr.operandBytes : Instr → List Byte
  | .hlt | .ret => []
  | .push a | .pop a | .prn a | .call a | .jmp a | .jeq a | .jne a => [a]
  | .not a u => [a, u]
  | .ldi a i => [a, i]
  | .add a b | .sub a b | .mul a b | .div a b | .cmp a b => [a, b]
  | .and a b | .or a b | .xor a b | .shl a b | .shr a b => [a, b]

/-- The bytes of an instruction, opcode first, at ascending addresses (R54, R81). -/
def encode (i : Instr) : List Byte := i.op.code :: i.operandBytes

/-- The low `8 * n` bits of a number as `n` bytes, the most significant byte first. -/
def bytesHighFirst : Nat → Nat → List Byte
  | 0, _ => []
  | n + 1, w => BitVec.ofNat 8 (w / 2 ^ (8 * n)) :: bytesHighFirst n w

/-- The low `8 * n` bits of a number as `n` bytes, the least significant byte first. -/
def bytesLowFirst : Nat → Nat → List Byte
  | 0, _ => []
  | n + 1, w => BitVec.ofNat 8 w :: bytesLowFirst n (w / 2 ^ 8)

/-- The bytes, in memory order, of a row of the opcode table whose bits are `w`. The table writes an instruction's bytes as
one number with byte0, the opcode, MOST significant (R86: "byte0 (the opcode, at the lowest address) first"; a row's "fixed"
places it in the top byte), so the top byte is read first. Where those bytes are no instruction of exactly that length, the
number is read the other way, its least significant byte first (log 5, DESIGN CHOICE of the test interface; no part of the
hardware). The bytes above `nbits` are zeros, up to the longest instruction (3 bytes, R90). -/
def tableBytes (nbits w : Nat) : List Byte :=
  let n := nbits / 8
  let high := bytesHighFirst n w
  match decode high with
  | .ok (_, []) => high ++ List.replicate (3 - n) 0#8
  | _ => bytesLowFirst n w ++ List.replicate (3 - n) 0#8

/-- The instruction the decoder reads from a word of the opcode table; none where it refuses. -/
def decodeTableWord (nbits w : Nat) : Option Instr :=
  match decode (tableBytes nbits w) with
  | .ok (i, _) => some i
  | .error _ => none

end Sys2Proof
end

