-- ==== Sys2Proof/Machine/State.lean ====
section
/-! DEFINITION. The architectural state `(x[0..7], pc, flag, halted, fault, mem, out)` of R36 as plain data, the fault record
(R240, R243), the reasons the model stops, and the state after reset (R270). -/

namespace Sys2Proof.Machine

/-- The fault kinds of the taxonomy (R240). -/
inductive FaultKind where
  | outOfBounds
  | invalidRegister
  | illegalInstruction
  /-- Never raised by a step: the ALU operation is chosen from a closed set (R141). -/
  | unsupportedOperation
  | divisionByZero
  | stackUnderflow
  /-- Raised by the host's loader before a run, never by a step (R246). -/
  | loadError
deriving DecidableEq, Repr

/-- What `raise K(detail)` names (R241): the kind and the detail of R240. The detail is an integer, since an offending
address may be -1. -/
structure Raise where
  kind   : FaultKind
  detail : Int
deriving DecidableEq, Repr

/-- The fault record (R243). Its `code` is a function of its kind and is not stored twice: `FaultKind.code`. -/
structure FaultRecord where
  kind   : FaultKind
  /-- The address of the faulting instruction's opcode byte. -/
  pc     : Nat
  /-- The opcode byte, or none when the fault is the opcode fetch itself. -/
  opcode : Option Byte
  detail : Int
deriving DecidableEq, Repr

/-- Memory (R33) as a list of (address, byte), in the canonical form `Memory.wf` of Machine/Memory.lean. -/
abbrev Memory := List Host.Cell

/-- The complete architectural state (R36). -/
structure State where
  /-- `R0` to `R7` (R20); `R7` is the stack pointer (R23). -/
  regs   : Vector Byte Config.nregs
  /-- The program counter, an unbounded non-negative integer that never wraps (R26). -/
  pc     : Nat
  /-- The comparison flag (R29). -/
  flag   : Bool
  /-- The halted flag (R30). -/
  halted : Bool
  /-- The fault status (R31): none, or the record of the one fault that ended the run. -/
  fault  : Option FaultRecord
  /-- The memory cells (R33). -/
  mem    : Memory
  /-- The lines PRN has emitted, first line first, without terminators (R41, R182). -/
  out    : List String
deriving DecidableEq, Repr

/-- Why no step is taken. Both reasons are the spec's terminal statuses (R111: "From Halted or Faulted no step exists"), raised
by `step` alone; both are safe, since the hardware takes no step either. A FAULT OF AN INSTRUCTION is none of these: it is
a next state that holds the fault record (R242). -/
inductive Fault where
  /-- Raised by `step` in a halted state (R111, R256). Safe. -/
  | halted
  /-- Raised by `step` in a state that holds a fault record, which it surfaces (R43, R111). Safe. -/
  | faulted (record : FaultRecord)
deriving DecidableEq, Repr

/-- Why the model has no meaning for an instruction. No arm of `exec` refuses. -/
inductive Refusal where
  /-- Raised by an arm of `exec` whose instruction has no meaning yet: by none now. Safe. -/
  | notModelled (mnemonic : String)
deriving DecidableEq, Repr

/-- The state after reset (R270): every value is the spec's. -/
def State.reset : State where
  regs   := (Vector.replicate Config.nregs 0#8).set Config.spIndex Config.spEmpty
  pc     := Config.pcInit
  flag   := false
  halted := false
  fault  := none
  mem    := []
  out    := []

end Sys2Proof.Machine
end

