-- ==== Sys2Proof/Machine/Memory.lean ====
section
/-! DEFINITION. The 256-byte memory array as a canonical list of cells (R33, R50). -/

namespace Sys2Proof.Machine

/-- The byte of a cell; an unlisted cell holds its reset value 0 (R33, R270). -/
def Memory.get : Memory → Nat → Byte
  | [], _ => Config.unlisted
  | (a, b) :: m, k => if a = k then b else Memory.get m k

/-- Lists a byte at an address, in the place the order of addresses gives it. -/
def Memory.insert : Memory → Nat → Byte → Memory
  | [], k, v => [(k, v)]
  | (a, b) :: m, k, v =>
    if k < a then (k, v) :: (a, b) :: m
    else if k = a then (k, v) :: m
    else (a, b) :: Memory.insert m k v

/-- Writes one cell and keeps the canonical form: the byte an unlisted cell reads as is not listed. -/
def Memory.set (m : Memory) (k : Nat) (v : Byte) : Memory :=
  if v = Config.unlisted then m.filter (fun c => c.1 != k) else Memory.insert m k v

/-- The canonical form: addresses strictly rising, and no entry equal to what an unlisted address reads as. -/
def Memory.wf : Memory → Bool
  | [] => true
  | (a, b) :: m => (b != Config.unlisted) && m.all (fun c => decide (a < c.1)) && Memory.wf m

/-- Every listed address is one of the `MEM_SIZE` cells (R50). -/
def Memory.inRange (m : Memory) : Bool := m.all (fun c => decide (c.1 < Config.memSize))

end Sys2Proof.Machine
end

