-- ==== Sys2Proof/Machine/Ops.lean ====
section
/-! DEFINITION. The named operations every meaning is written over: registers, the memory interface, the stack primitives,
output, raising a fault, and the atomic commit of a step. -/

namespace Sys2Proof.Machine

/-- `x[i]` (R8, R21). -/
def State.x (s : State) (i : RegIdx) : Byte := s.regs[i]

/-- `x[i] <- v` (R8, R21). No register is hardwired (R22). -/
def State.setX (s : State) (i : RegIdx) (v : Byte) : State := { s with regs := s.regs.set i v }

/-- `SP`, that is `x[7]` (R23). -/
def State.sp (s : State) : Byte := s.x Config.spIndex

/-- `SP <- v`. -/
def State.setSp (s : State) (v : Byte) : State := s.setX Config.spIndex v

/-- `pc <- target` (R8). -/
def State.setPc (s : State) (target : Nat) : State := { s with pc := target }

/-- `flag <- b` (R8, R29). -/
def State.setFlag (s : State) (b : Bool) : State := { s with flag := b }

/-- `halted <- true` (R30). -/
def State.setHalted (s : State) : State := { s with halted := true }

/-- `emit(s)`: append one line to the output stream; the sink never refuses it (R41). -/
def State.emit (s : State) (line : String) : State := { s with out := s.out ++ [line] }

/-- `mem[a]`: the byte of a cell. -/
def State.byteAt (s : State) (a : Nat) : Byte := s.mem.get a

/-- `mem[a] <- v`, for a cell that exists. -/
def State.setByte (s : State) (a : Nat) (v : Byte) : State := { s with mem := s.mem.set a v }

/-- An address outside `[0, MEM_SIZE)` (R51, R52). -/
def outside (addr : Int) : Bool := decide (addr < 0) || decide (addr ≥ (Config.memSize : Int))

/-- `MemRead(addr, 1)` (R51). -/
def memRead (s : State) (addr : Int) : Except Raise Byte :=
  if outside addr then .error ⟨.outOfBounds, addr⟩ else .ok (s.byteAt addr.toNat)

/-- `MemWrite(addr, 1, v)` (R52). -/
def memWrite (s : State) (addr : Int) (v : Byte) : Except Raise State :=
  if outside addr then .error ⟨.outOfBounds, addr⟩ else .ok (s.setByte addr.toNat v)

/-- The address a push stores to: `SP - 1`, an integer that is not wrapped (R191). -/
def pushAddr (s : State) : Int := (s.sp.toNat : Int) - 1

/-- `push(v)` (R191). -/
def push (s : State) (v : Byte) : Except Raise State :=
  if outside (pushAddr s) then .error ⟨.outOfBounds, pushAddr s⟩
  else memWrite (s.setSp (BitVec.ofInt 8 (pushAddr s))) (pushAddr s) v

/-- `pop()` (R192): the popped byte and the new stack pointer value, which the caller writes. The popped cell keeps its
byte. -/
def pop (s : State) : Except Raise (Byte × Byte) :=
  let sp := s.sp
  if sp = Config.spEmpty then .error ⟨.stackUnderflow, sp.toNat⟩
  else if sp.toNat ≥ Config.memSize then .error ⟨.outOfBounds, sp.toNat⟩
  else if sp.toNat + 1 > 255 then .error ⟨.outOfBounds, sp.toNat + 1⟩
  else
    match memRead s sp.toNat with
    | .error e => .error e
    | .ok v => .ok (v, BitVec.ofNat 8 (sp.toNat + 1))

/-- The numeric codes of the fault kinds (R240). -/
def FaultKind.code : FaultKind → Nat
  | .outOfBounds => 1
  | .invalidRegister => 2
  | .illegalInstruction => 3
  | .unsupportedOperation => 4
  | .divisionByZero => 5
  | .stackUnderflow => 6
  | .loadError => 7

/-- `raise K(detail)`, the one way a fault is taken (R241, R242): nothing changes but the fault status, from none to the
record of R243; `pc` stays at the faulting instruction. There is no handler and no vector (R247), and no return (R248). -/
def State.raise (s : State) (opcode : Option Byte) (r : Raise) : State :=
  { s with fault := some { kind := r.kind, pc := s.pc, opcode := opcode, detail := r.detail } }

/-- The atomic commit of an instruction (R9, R118): all its writes, or, where it raises, the fault record alone. -/
def commit (op : Op) (s : State) (r : Except Raise State) : Host.Outcome State Fault Refusal :=
  match r with
  | .ok t => .next t
  | .error e => .next (s.raise (some op.code) e)

/-- The engine's status (R32). -/
inductive Status where
  | running | halted | faulted
deriving DecidableEq, Repr

/-- The status is a function of the flags (R32). -/
def State.status (s : State) : Status :=
  if s.halted then .halted else if s.fault.isSome then .faulted else .running

end Sys2Proof.Machine
end

