-- ==== Sys2Proof/Machine/Flags.lean ====
section
/-! DEFINITION. The one flag computation of the core (R29, R154). -/

namespace Sys2Proof.Machine

/-- CMP's result: true iff the two values are bit-for-bit equal (R154). There is no carry, overflow, less-than or
greater-than bit (R34). -/
def compareFlag (va vb : Byte) : Bool := va == vb

end Sys2Proof.Machine
end

