-- ==== Sys2Proof/Machine/Operands.lean ====
section
/-! DEFINITION. Operand validation (R115) and the fixed advance of the program counter (R117). -/

namespace Sys2Proof.Machine

/-- A register operand byte, validated: the whole byte is the index, and a byte of 8 or more raises InvalidRegister
(R83, R115). -/
def regOperand (a : Byte) : Except Raise RegIdx :=
  if h : a.toNat < Config.nregs then .ok ⟨a.toNat, h⟩ else .error ⟨.invalidRegister, a.toNat⟩

/-- The first register field is validated, then the execute phase runs on it (R115, R116). -/
def withReg (a : Byte) (execute : RegIdx → Except Raise State) : Except Raise State :=
  match regOperand a with
  | .error e => .error e
  | .ok i => execute i

/-- Both register fields are validated, `a` before `b` (R115). -/
def withRegs (a b : Byte) (execute : RegIdx → RegIdx → Except Raise State) : Except Raise State :=
  withReg a fun i => withReg b fun j => execute i j

/-- `p + 1 + n`: the address after the instruction at `pc` (R117). -/
def nextPc (op : Op) (s : State) : Nat := s.pc + op.length

/-- `pc <- p + 1 + n` (R117). -/
def State.advance (s : State) (op : Op) : State := s.setPc (nextPc op s)

end Sys2Proof.Machine
end

