-- ==== Sys2Proof/Machine/Alu.lean ====
section
/-! DEFINITION. The ALU (R140 to R142) and the eleven ALU instructions (R143 to R154). -/

namespace Sys2Proof.Machine

/-- The closed set of ALU operations (R141), so that UnsupportedOperation has no raiser. -/
inductive AluOp where
  | add | sub | mul | div | and | or | xor | shl | shr | not | cmp
deriving DecidableEq, Repr

/-- A mathematical result kept modulo 256 (R142). -/
def wrap8 (r : Int) : Byte := BitVec.ofInt 8 r

/-- `(va + vb) mod 256` (R144). -/
def aluAdd (va vb : Byte) : Byte := wrap8 ((va.toNat : Int) + vb.toNat)

/-- `(va - vb) mod 256` (R145; conflict C5: SUB subtracts). -/
def aluSub (va vb : Byte) : Byte := wrap8 ((va.toNat : Int) - vb.toNat)

/-- `(va * vb) mod 256` (R146). -/
def aluMul (va vb : Byte) : Byte := wrap8 ((va.toNat : Int) * vb.toNat)

/-- `floor(va / vb)` (R147), for a divisor that is not 0. -/
def aluDiv (va vb : Byte) : Byte := BitVec.ofNat 8 (va.toNat / vb.toNat)

/-- Bit by bit (R148). -/
def aluAnd (va vb : Byte) : Byte := va &&& vb

/-- Bit by bit (R149). -/
def aluOr (va vb : Byte) : Byte := va ||| vb

/-- Bit by bit (R150). -/
def aluXor (va vb : Byte) : Byte := va ^^^ vb

/-- `(va * 2^s) mod 256`, the amount not masked (R151). -/
def aluShl (va amount : Byte) : Byte := BitVec.ofNat 8 (va.toNat * 2 ^ amount.toNat)

/-- `floor(va / 2^s)`, logical, the amount not masked (R152). -/
def aluShr (va amount : Byte) : Byte := BitVec.ofNat 8 (va.toNat / 2 ^ amount.toNat)

/-- The complement of all 8 bits (R153). -/
def aluNot (va : Byte) : Byte := ~~~va

/-- `apply(op, reg_a_index, reg_b_index)` (R140): writes `x[a]`, or `flag` for CMP, and nothing else. The operands are read
before anything is written (R116). -/
def aluApply (op : AluOp) (a b : RegIdx) (s : State) : Except Raise State :=
  let va := s.x a
  let vb := s.x b
  match op with
  | .add => .ok (s.setX a (aluAdd va vb))
  | .sub => .ok (s.setX a (aluSub va vb))
  | .mul => .ok (s.setX a (aluMul va vb))
  | .div => if vb = 0#8 then .error ⟨.divisionByZero, b.val⟩ else .ok (s.setX a (aluDiv va vb))
  | .and => .ok (s.setX a (aluAnd va vb))
  | .or  => .ok (s.setX a (aluOr va vb))
  | .xor => .ok (s.setX a (aluXor va vb))
  | .shl => .ok (s.setX a (aluShl va vb))
  | .shr => .ok (s.setX a (aluShr va vb))
  | .not => .ok (s.setX a (aluNot va))
  | .cmp => .ok (s.setFlag (compareFlag va vb))

/-- A two-register ALU instruction (format F2RR): validate, apply, advance (R143). -/
def aluTwo (op : Op) (f : AluOp) (a b : Byte) (s : State) : Host.Outcome State Fault Refusal :=
  commit op s <| withRegs a b fun i j =>
    match aluApply f i j s with
    | .error e => .error e
    | .ok t => .ok (t.advance op)

/-- The one-register ALU instruction (format F2RU): the unused byte names no register (R85). -/
def aluOne (op : Op) (f : AluOp) (a : Byte) (s : State) : Host.Outcome State Fault Refusal :=
  commit op s <| withReg a fun i =>
    match aluApply f i i s with
    | .error e => .error e
    | .ok t => .ok (t.advance op)

/-- ADD (R144). -/
def execAdd (a b : Byte) (s : State) : Host.Outcome State Fault Refusal := aluTwo .add .add a b s

/-- SUB (R145). -/
def execSub (a b : Byte) (s : State) : Host.Outcome State Fault Refusal := aluTwo .sub .sub a b s

/-- MUL (R146). -/
def execMul (a b : Byte) (s : State) : Host.Outcome State Fault Refusal := aluTwo .mul .mul a b s

/-- DIV (R147): a zero divisor raises DivisionByZero(b), and `x[a]` keeps its value. -/
def execDiv (a b : Byte) (s : State) : Host.Outcome State Fault Refusal := aluTwo .div .div a b s

/-- AND (R148). -/
def execAnd (a b : Byte) (s : State) : Host.Outcome State Fault Refusal := aluTwo .and .and a b s

/-- OR (R149). -/
def execOr (a b : Byte) (s : State) : Host.Outcome State Fault Refusal := aluTwo .or .or a b s

/-- XOR (R150). -/
def execXor (a b : Byte) (s : State) : Host.Outcome State Fault Refusal := aluTwo .xor .xor a b s

/-- SHL (R151). -/
def execShl (a b : Byte) (s : State) : Host.Outcome State Fault Refusal := aluTwo .shl .shl a b s

/-- SHR (R152). -/
def execShr (a b : Byte) (s : State) : Host.Outcome State Fault Refusal := aluTwo .shr .shr a b s

/-- NOT (R153): the second operand byte was fetched and is not looked at. -/
def execNot (a _u : Byte) (s : State) : Host.Outcome State Fault Refusal := aluOne .not .not a s

/-- CMP (R154): writes `flag` and no register. -/
def execCmp (a b : Byte) (s : State) : Host.Outcome State Fault Refusal := aluTwo .cmp .cmp a b s

end Sys2Proof.Machine
end

