-- ==== Sys2Proof/Machine/Control.lean ====
section
/-! DEFINITION. HLT and the control transfers JMP, JEQ, JNE, CALL, RET (R210 to R216). Every target is absolute and is not
checked when it is taken (R211). -/

namespace Sys2Proof.Machine

/-- HLT (R210). -/
def execHlt (s : State) : Host.Outcome State Fault Refusal :=
  commit .hlt s (.ok (s.setHalted.advance .hlt))

/-- JMP (R212). -/
def execJmp (a : Byte) (s : State) : Host.Outcome State Fault Refusal :=
  commit .jmp s <| withReg a fun i => .ok (s.setPc (s.x i).toNat)

/-- JEQ (R213): the register is validated whichever way the flag is. -/
def execJeq (a : Byte) (s : State) : Host.Outcome State Fault Refusal :=
  commit .jeq s <| withReg a fun i => .ok (if s.flag then s.setPc (s.x i).toNat else s.advance .jeq)

/-- JNE (R214): the register is validated whichever way the flag is. -/
def execJne (a : Byte) (s : State) : Host.Outcome State Fault Refusal :=
  commit .jne s <| withReg a fun i => .ok (if s.flag then s.advance .jne else s.setPc (s.x i).toNat)

/-- CALL (R215): the target is read before the push, and a return address that does not fit a byte raises OutOfBounds
before anything is pushed. -/
def execCall (a : Byte) (s : State) : Host.Outcome State Fault Refusal :=
  commit .call s <| withReg a fun i =>
    let target := s.x i
    let r := nextPc .call s
    if r > 255 then .error ⟨.outOfBounds, r⟩
    else
      match push s (BitVec.ofNat 8 r) with
      | .error e => .error e
      | .ok t => .ok (t.setPc target.toNat)

/-- RET (R216): the pop of R192, its StackUnderflow check included. -/
def execRet (s : State) : Host.Outcome State Fault Refusal :=
  commit .ret s <|
    match pop s with
    | .error e => .error e
    | .ok (v, t) => .ok ((s.setSp t).setPc v.toNat)

end Sys2Proof.Machine
end

