-- ==== Sys2Proof/Machine/LoadOutput.lean ====
section
/-! DEFINITION. LDI and PRN (R180 to R182). -/

namespace Sys2Proof.Machine

/-- LDI (R180): `x[a] <- i`, the whole byte, not extended (R84). -/
def execLdi (a i : Byte) (s : State) : Host.Outcome State Fault Refusal :=
  commit .ldi s <| withReg a fun r => .ok ((s.setX r i).advance .ldi)

/-- One decimal digit, `0` to `9`. -/
def digitChar (d : Nat) : Char := Char.ofNat (48 + d)

/-- `decimal(v)` (R182): the unsigned decimal spelling, no sign, no leading zeros, `0` for zero. -/
def decimalDigits (v : Byte) : List Char :=
  let n := v.toNat
  if n < 10 then [digitChar n]
  else if n < 100 then [digitChar (n / 10), digitChar (n % 10)]
  else [digitChar (n / 100), digitChar (n / 10 % 10), digitChar (n % 10)]

/-- The line PRN emits (R182): the seven characters `value: ` and the decimal digits. -/
def prnLine (v : Byte) : String := "value: " ++ String.ofList (decimalDigits v)

/-- PRN (R181). -/
def execPrn (a : Byte) (s : State) : Host.Outcome State Fault Refusal :=
  commit .prn s <| withReg a fun r => .ok ((s.emit (prnLine (s.x r))).advance .prn)

/-- What the output stream holds as text: each line ended by one newline character (R182). -/
def streamText (out : List String) : List Char := out.flatMap fun line => line.toList ++ ['\n']

end Sys2Proof.Machine
end

