-- ==== Sys2Proof/Machine/Stack.lean ====
section
/-! DEFINITION. PUSH and POP (R193, R194), over the primitives `push` and `pop` of Machine/Ops.lean (R191, R192). -/

namespace Sys2Proof.Machine

/-- PUSH (R193): the value pushed is `x[a]` as it was before the step, for R7 too. -/
def execPush (a : Byte) (s : State) : Host.Outcome State Fault Refusal :=
  commit .push s <| withReg a fun i =>
    match push s (s.x i) with
    | .error e => .error e
    | .ok t => .ok (t.advance .push)

/-- POP (R194): `x[7] <- t` and then `x[a] <- v`, so that POP R7 leaves the popped byte in R7. -/
def execPop (a : Byte) (s : State) : Host.Outcome State Fault Refusal :=
  commit .pop s <| withReg a fun i =>
    match pop s with
    | .error e => .error e
    | .ok (v, t) => .ok (((s.setSp t).setX i v).advance .pop)

end Sys2Proof.Machine
end

