-- ==== Sys2Proof/Machine/Fetch.lean ====
section
/-! DEFINITION. Opcode fetch, decode and operand fetch (R112 to R114). The fetch changes no state. -/

namespace Sys2Proof.Machine

/-- A fault of the fetch: what it raises, and the opcode byte if it was read (R243). -/
structure FetchFault where
  opcode : Option Byte
  raised : Raise
deriving DecidableEq, Repr

/-- `n` bytes through the memory interface at ascending addresses, the first out-of-range address reported (R53, R114). -/
def readBytes (s : State) : Nat → Nat → Except Raise (List Byte)
  | _, 0 => .ok []
  | addr, n + 1 =>
    match memRead s addr with
    | .error e => .error e
    | .ok b =>
      match readBytes s (addr + 1) n with
      | .error e => .error e
      | .ok bs => .ok (b :: bs)

/-- The instruction at `pc` (R112 to R114): the opcode byte, its entry in the map, then the operand bytes the map gives it.
An illegal opcode has no length, and none of its operand bytes is fetched (R88). -/
def fetch (s : State) : Except FetchFault Instr :=
  match memRead s s.pc with
  | .error e => .error ⟨none, e⟩
  | .ok c =>
    match Op.ofCode c with
    | none => .error ⟨some c, ⟨.illegalInstruction, c.toNat⟩⟩
    | some o =>
      match readBytes s (s.pc + 1) o.operands with
      | .error e => .error ⟨some c, e⟩
      | .ok bs => .ok (o.build (bs.getD 0 0#8) (bs.getD 1 0#8))

/-- The bytes of memory from an address to the last cell, in address order. -/
def State.bytesFrom (s : State) (addr : Nat) : List Byte :=
  (List.range' addr (Config.memSize - addr)).map s.byteAt

/-- Stores bytes at ascending addresses; a byte past the last cell has no place and is left out. -/
def placeBytes (s : State) : Nat → List Byte → State
  | _, [] => s
  | addr, b :: bs => placeBytes (if addr < Config.memSize then s.setByte addr b else s) (addr + 1) bs

end Sys2Proof.Machine
end

