-- ==== Sys2Proof/Machine/Step.lean ====
section
/-! DEFINITION. One step of the core (R110). -/

namespace Sys2Proof.Machine

/-- One step (R110): the terminal check (R111), the fetch (R112 to R114), and the instruction's meaning, which validates its
register fields and ends with the program-counter update (R115 to R117). -/
def step (s : State) : Host.Outcome State Fault Refusal :=
  if s.halted then .fault .halted
  else
    match s.fault with
    | some record => .fault (.faulted record)
    | none =>
      match fetch s with
      | .error f => .next (s.raise f.opcode f.raised)
      | .ok i => exec i s

/-- `s` with the bytes of a table word stored at `pc`, and Running, so that the next step fetches and runs it. It stands for
the host's load (R271; log 4, log 6). -/
def State.withFetchWord (s : State) (nbits w : Nat) : State :=
  placeBytes { s with halted := false, fault := none } s.pc (tableBytes nbits w)

end Sys2Proof.Machine
end

