-- ==== Sys2Proof/Machine/Text.lean ====
section
/-! DEFINITION. Reading text as the host's loader and the assembler syntax need it (R91, R93, R272). -/

namespace Sys2Proof.Machine

/-- A text cut at every separator character. -/
def splitAt (sep : Char) : List Char → List (List Char)
  | [] => [[]]
  | c :: cs =>
    if c = sep then [] :: splitAt sep cs
    else
      match splitAt sep cs with
      | [] => [[c]]
      | l :: ls => (c :: l) :: ls

/-- A space or a tab (R272). -/
def isBlank (c : Char) : Bool := c == ' ' || c == '\t'

/-- Surrounding spaces and tabs removed (R272). -/
def trim (l : List Char) : List Char := ((l.dropWhile isBlank).reverse.dropWhile isBlank).reverse

/-- The text before the first `#` (R91, R272). -/
def dropComment (l : List Char) : List Char := l.takeWhile (fun c => c != '#')

/-- The value of one digit, in a base up to 16; none where the character is no digit of that base. -/
def digitValue (base : Nat) (c : Char) : Option Nat :=
  let n := c.toNat
  let d := if 48 ≤ n ∧ n ≤ 57 then n - 48 else if 65 ≤ n ∧ n ≤ 70 then n - 55 else if 97 ≤ n ∧ n ≤ 102 then n - 87 else 16
  if d < base then some d else none

/-- The digits of a number, read onto the value of the digits before them. -/
def digitsFrom (base : Nat) : Nat → List Char → Option Nat
  | acc, [] => some acc
  | acc, c :: cs =>
    match digitValue base c with
    | none => none
    | some d => digitsFrom base (acc * base + d) cs

/-- A non-empty string of digits of a base, as a number. -/
def parseDigits (base : Nat) : List Char → Option Nat
  | [] => none
  | c :: cs => digitsFrom base 0 (c :: cs)

end Sys2Proof.Machine
end

