-- ==== Sys2Proof/Machine/Assembler.lean ====
section
/-! DEFINITION. The assembler syntax (R91, R92): text to the byte sequence of R81. It is notation, no part of the core. -/

namespace Sys2Proof.Machine

/-- The mnemonic of an opcode (R86). -/
def opName : Op → String
  | .hlt => "HLT"
  | .ret => "RET"
  | .push => "PUSH"
  | .pop => "POP"
  | .prn => "PRN"
  | .call => "CALL"
  | .jmp => "JMP"
  | .jeq => "JEQ"
  | .jne => "JNE"
  | .not => "NOT"
  | .ldi => "LDI"
  | .add => "ADD"
  | .sub => "SUB"
  | .mul => "MUL"
  | .div => "DIV"
  | .cmp => "CMP"
  | .and => "AND"
  | .or => "OR"
  | .xor => "XOR"
  | .shl => "SHL"
  | .shr => "SHR"

/-- The opcode a mnemonic names, in any mix of cases (R91). -/
def opOfName (word : List Char) : Option Op := Op.all.find? fun o => (opName o).toList == word.map Char.toUpper

/-- A byte literal: decimal, `0x` hexadecimal or `0b` binary, below 256 (R91). -/
def parseByte (word : List Char) : Option Byte :=
  let value :=
    match word with
    | '0' :: 'x' :: ds => parseDigits 16 ds
    | '0' :: 'b' :: ds => parseDigits 2 ds
    | ds => parseDigits 10 ds
  match value with
  | some v => if v < 256 then some (BitVec.ofNat 8 v) else none
  | none => none

/-- A register name: `R0` to `R7`, `r0` to `r7`, or `SP` for R7 (R91). -/
def parseReg (word : List Char) : Option Byte :=
  match word with
  | ['S', 'P'] => some 7#8
  | [c, d] =>
    if c = 'R' ∨ c = 'r' then (digitValue 8 d).map (BitVec.ofNat 8) else none
  | _ => none

/-- NOT's second operand: any byte literal or register name (R91). -/
def parseUnused (word : List Char) : Option Byte :=
  match parseReg word with
  | some v => some v
  | none => parseByte word

/-- The operand words of a statement, checked against the format (R91). `NOT Ra` stands for `NOT Ra, 0` (R92). -/
def parseOperands (o : Op) (words : List (List Char)) : Option Instr :=
  match o.format, words with
  | .f0, [] => some (o.build 0#8 0#8)
  | .f1r, [w] => (parseReg w).map fun a => o.build a 0#8
  | .f2ri, [w, v] =>
    match parseReg w, parseByte v with
    | some a, some i => some (o.build a i)
    | _, _ => none
  | .f2rr, [w, v] =>
    match parseReg w, parseReg v with
    | some a, some b => some (o.build a b)
    | _, _ => none
  | .f2ru, [w] => (parseReg w).map fun a => o.build a 0#8
  | .f2ru, [w, v] =>
    match parseReg w, parseUnused v with
    | some a, some u => some (o.build a u)
    | _, _ => none
  | _, _ => none

/-- One statement: a mnemonic, then the operands separated by commas (R91). -/
def parseStatement (text : List Char) : Option Instr :=
  let t := trim text
  let name := t.takeWhile (fun c => !isBlank c)
  let rest := trim (t.dropWhile (fun c => !isBlank c))
  match opOfName name with
  | none => none
  | some o => parseOperands o (if rest.isEmpty then [] else (splitAt ',' rest).map trim)

/-- The statements of a text: one a line or separated by `;`, comments and empty ones dropped (R91). -/
def statements (text : List Char) : List (List Char) :=
  (((splitAt '\n' text).map dropComment).flatMap (splitAt ';')).filter fun l => !(trim l).isEmpty

/-- The bytes of a list of statements; none where one of them is no statement of R91. -/
def assembleAll : List (List Char) → Option (List Byte)
  | [] => some []
  | l :: ls =>
    match parseStatement l, assembleAll ls with
    | some i, some bs => some (encode i ++ bs)
    | _, _ => none

/-- Assembles a text to the byte sequence of R81. -/
def assemble (text : List Char) : Option (List Byte) := assembleAll (statements text)

/-- A register name, for a byte below 8. -/
def regName (a : Byte) : List Char := ['R', digitChar a.toNat]

/-- The statement of an instruction in the shape R91 gives it, its immediate in decimal. -/
def statementOf (i : Instr) : List Char :=
  let name := (opName i.op).toList
  match i with
  | .hlt | .ret => name
  | .push a | .pop a | .prn a | .call a | .jmp a | .jeq a | .jne a => name ++ ' ' :: regName a
  | .not a u => name ++ ' ' :: regName a ++ [',', ' '] ++ decimalDigits u
  | .ldi a v => name ++ ' ' :: regName a ++ [',', ' '] ++ decimalDigits v
  | .add a b | .sub a b | .mul a b | .div a b | .cmp a b => name ++ ' ' :: regName a ++ [',', ' '] ++ regName b
  | .and a b | .or a b | .xor a b | .shl a b | .shr a b => name ++ ' ' :: regName a ++ [',', ' '] ++ regName b

end Sys2Proof.Machine
end

