-- ==== Sys2Proof/Machine/Loader.lean ====
section
/-! DEFINITION. Loading the program image before a run (R271 to R273), the host's part of the block's interface (R4, R42). -/

namespace Sys2Proof.Machine

/-- What one line of the image text holds (R272). -/
inductive ImageLine where
  | skipped
  | byte (v : Byte)
  | malformed
deriving DecidableEq, Repr

/-- One line (R272): comment removed, trimmed, then nothing, or a token of `0` and `1` whose value is below 256. A token of
any other characters, or of a value of 256 or more, is malformed (R273 a, b). -/
def readLine (l : List Char) : ImageLine :=
  match trim (dropComment l) with
  | [] => .skipped
  | token =>
    match parseDigits 2 token with
    | none => .malformed
    | some v => if v < 256 then .byte (BitVec.ofNat 8 v) else .malformed

/-- The lines from number `line` on, their bytes written from address `addr` on through the memory interface (R271). The first
line that is malformed, or whose byte has no cell left, is the LoadError (R273). -/
def loadLines (s : State) (addr line : Nat) : List (List Char) → Except Raise State
  | [] => .ok s
  | l :: ls =>
    match readLine l with
    | .skipped => loadLines s addr (line + 1) ls
    | .malformed => .error ⟨.loadError, line⟩
    | .byte v =>
      match memWrite s addr v with
      | .error _ => .error ⟨.loadError, line⟩
      | .ok t => loadLines t (addr + 1) (line + 1) ls

/-- The host's load of an image text (R271): `LOAD_BASE` upward, lines counted from 1. It changes memory alone. -/
def load (text : List Char) (s : State) : Except Raise State :=
  loadLines s Config.loadBase 1 (splitAt '\n' text)

/-- The launch state of a run: the reset state with the image loaded (R278). A LoadError means no run starts (R246). -/
def launch (text : List Char) : Except Raise State := load text State.reset

/-- The eight binary digits of a byte, the most significant first. -/
def binaryDigits (v : Byte) : List Char :=
  [7, 6, 5, 4, 3, 2, 1, 0].map fun k => if v.getLsbD k then '1' else '0'

/-- The image text of a byte sequence: one binary literal per line (R93). -/
def imageText (bytes : List Byte) : List Char := bytes.flatMap fun v => binaryDigits v ++ ['\n']

end Sys2Proof.Machine
end

