-- ==== Sys2Proof/Machine/HostRun.lean ====
section
/-! DEFINITION. The run of R119 as the host drives it (R275, R276). The other interactions of R275's table are the functions
`State.reset`, `load`, `step`, `State.status`, and the reading of the state's own fields. -/

namespace Sys2Proof.Machine

/-- How the host's run comes back (R120, R275): it ended in a terminal state, or the budget was spent with the status still
Running. -/
inductive RunResult where
  | ended (s : State)
  | budgetExhausted (s : State)
deriving DecidableEq, Repr

/-- Steps are taken while the status is Running, at most `budget` of them (R119, R276). From Halted or Faulted it is a no-op
that changes nothing and raises nothing (R111). -/
def run (budget : Nat) (s : State) : RunResult :=
  match s.status with
  | .halted => .ended s
  | .faulted => .ended s
  | .running =>
    match budget with
    | 0 => .budgetExhausted s
    | n + 1 =>
      match step s with
      | .next t => run n t
      | .fault _ => .ended s
      | .refused _ => .ended s

/-- The state a run came to, ended or not. -/
def RunResult.state : RunResult → State
  | .ended s => s
  | .budgetExhausted s => s

end Sys2Proof.Machine
end

