-- ==== Sys2Proof/Safety.lean ====
section
/-! DEFINITION. The invariant of the core's states, and what runs reach, end in and are safe from. -/

namespace Sys2Proof.Machine

/-- What a fault record of a step may hold, kind by kind (R240, R243). -/
def FaultRecord.Legal (r : FaultRecord) : Prop :=
  match r.kind with
  | .outOfBounds => outside r.detail = true ∧ ∀ c, r.opcode = some c → (Op.ofCode c).isSome = true
  | .invalidRegister =>
    (8 ≤ r.detail ∧ r.detail < 256) ∧ ∃ o : Op, r.opcode = some o.code ∧ o.format ≠ .f0
  | .illegalInstruction => ∃ c : Byte, r.opcode = some c ∧ r.detail = c.toNat ∧ Op.ofCode c = none
  | .unsupportedOperation => False
  | .divisionByZero => (0 ≤ r.detail ∧ r.detail < 8) ∧ r.opcode = some Op.div.code
  | .stackUnderflow => r.detail = 0xF4 ∧ (r.opcode = some Op.pop.code ∨ r.opcode = some Op.ret.code)
  | .loadError => False

/-- The invariant every step keeps. -/
structure State.Inv (s : State) : Prop where
  /-- Memory is in its canonical form. -/
  memCanonical : s.mem.wf = true
  /-- Memory lists only cells that exist (R50). -/
  memInRange : s.mem.inRange = true
  /-- `pc` is in `[0, MEM_SIZE]` (R28). -/
  pcInRange : s.pc ≤ Config.memSize
  /-- Halted and Faulted never hold together (R32). -/
  statusExclusive : ¬ (s.halted = true ∧ s.fault.isSome = true)
  /-- A fault record names the instruction `pc` still points at, and is one a step may raise (R242, R243). -/
  faultLegal : ∀ r, s.fault = some r → r.pc = s.pc ∧ r.Legal
  /-- Every line emitted is PRN's line of a byte (R182). -/
  linesLegal : ∀ l ∈ s.out, ∃ v : Byte, l = prnLine v

/-- Exactly `n` steps lead from `s` to `t`. -/
def StepsTo : Nat → State → State → Prop
  | 0, s, t => s = t
  | n + 1, s, t => ∃ u, step s = .next u ∧ StepsTo n u t

/-- What steps reach from a state, itself included. -/
def Reaches (s t : State) : Prop := ∃ n, StepsTo n s t

/-- A run from `s` ends in `t` (R120): with some budget it comes to a terminal state. -/
def RunEndsIn (s t : State) : Prop := ∃ budget, run budget s = .ended t

/-- A run from `s` never ends (R121). -/
def RunsForever (s : State) : Prop := ∀ budget, ∃ t, run budget s = .budgetExhausted t

/-- A safe run: no state it reaches holds a fault record (D7: "A claim should take no fault recorded as a premise"). -/
def SafeFrom (s : State) : Prop := ∀ t, Reaches s t → t.fault = none

end Sys2Proof.Machine
end

