-- ==== Sys2Proof/Certificates/Slice0/Obligations.lean ====
section
/-! DEFINITION. The statements for the provers. Addresses, register values and the program counter are compared as natural
numbers, so that no statement leans on how the model computes them. -/

namespace Sys2Proof.Claims

open Sys2Proof.Machine

/-- Every byte of memory reads as before. -/
def KeepsMemory (s t : State) : Prop := ∀ k : Nat, t.byteAt k = s.byteAt k

/-- Every register reads as before. -/
def KeepsRegs (s t : State) : Prop := ∀ r : RegIdx, t.x r = s.x r

/-- Every register but one reads as before. -/
def KeepsRegsBut (i : RegIdx) (s t : State) : Prop := ∀ r : RegIdx, r ≠ i → t.x r = s.x r

/-- The halted flag, the fault status and the output stream are as before. -/
def KeepsStatusAndOutput (s t : State) : Prop := t.halted = s.halted ∧ t.fault = s.fault ∧ t.out = s.out

/-- The frame of an instruction whose one destination is register `i`: all but that register and `pc`. -/
def RegisterFrame (i : RegIdx) (s t : State) : Prop :=
  KeepsRegsBut i s t ∧ t.flag = s.flag ∧ KeepsStatusAndOutput s t ∧ KeepsMemory s t

/-- The frame of an instruction that writes nothing but `pc`. -/
def TransferFrame (s t : State) : Prop :=
  KeepsRegs s t ∧ t.flag = s.flag ∧ KeepsStatusAndOutput s t ∧ KeepsMemory s t

/-- The frame of an instruction that pushes `v`: the byte at the address the push stores to, `pushAddr s`, becomes `v` and
every other byte reads as before; `R7` becomes that address and every other register reads as before. -/
def PushFrame (v : Byte) (s t : State) : Prop :=
  (∀ k : Nat, (k : Int) = pushAddr s → t.byteAt k = v) ∧
  (∀ k : Nat, (k : Int) ≠ pushAddr s → t.byteAt k = s.byteAt k) ∧
  (t.sp.toNat : Int) = pushAddr s ∧ KeepsRegsBut Config.spIndex s t ∧
  t.flag = s.flag ∧ KeepsStatusAndOutput s t

/-- In every Running state whose opcode byte is `code`, with `n` operand bytes to fetch, the first operand address outside
memory is the OutOfBounds the step raises (R114, the frame faults of R143). -/
def OperandFetchFaults (code : Byte) (n : Nat) : Prop :=
  ∀ s : State, s.status = .running → s.pc < 256 → s.byteAt s.pc = code → ∀ k, 1 ≤ k → k ≤ n → s.pc + (k - 1) < 256 →
    256 ≤ s.pc + k → step s = .next (s.raise (some code) ⟨.outOfBounds, (s.pc + k : Nat)⟩)

/-- The first register field, checked before anything else an instruction does (R115). -/
def FirstFieldFaults (code : Byte) (ins : Byte → Instr) : Prop :=
  ∀ (s : State) (a : Byte), 8 ≤ a.toNat →
    exec (ins a) s = .next (s.raise (some code) ⟨.invalidRegister, a.toNat⟩)

/-- What R143 says of every two-register instruction: its encoding, the faults of its operand fetch, and its register fields
checked in the order `a`, `b`. -/
def TwoRegisterFormat (code : Byte) (ins : Byte → Byte → Instr) : Prop :=
  (∀ a b rest, decode (code :: a :: b :: rest) = .ok (ins a b, rest)) ∧
  OperandFetchFaults code 2 ∧
  (∀ b, FirstFieldFaults code fun a => ins a b) ∧
  ∀ (s : State) (a b : Byte), a.toNat < 8 → 8 ≤ b.toNat →
    exec (ins a b) s = .next (s.raise (some code) ⟨.invalidRegister, b.toNat⟩)

/-- A two-register instruction whose result is a function of the two values: `x[a]` becomes it, `pc` advances by 3, nothing
else changes, and it raises its frame faults only. -/
def ArithmeticRule (code : Byte) (ins : Byte → Byte → Instr) (result : Nat → Nat → Nat) : Prop :=
  TwoRegisterFormat code ins ∧
  ∀ (s : State) (a b : Byte) (i j : RegIdx), a.toNat = i.val → b.toNat = j.val →
    ∃ t, exec (ins a b) s = .next t ∧ (t.x i).toNat = result (s.x i).toNat (s.x j).toNat ∧
      t.pc = s.pc + 3 ∧ RegisterFrame i s t

/-- The same for a result given bit by bit on 8 bits. -/
def BitwiseRule (code : Byte) (ins : Byte → Byte → Instr) (bit : Bool → Bool → Bool) : Prop :=
  TwoRegisterFormat code ins ∧
  ∀ (s : State) (a b : Byte) (i j : RegIdx), a.toNat = i.val → b.toNat = j.val →
    ∃ t, exec (ins a b) s = .next t ∧
      (∀ k, k < 8 → (t.x i).getLsbD k = bit ((s.x i).getLsbD k) ((s.x j).getLsbD k)) ∧
      t.pc = s.pc + 3 ∧ RegisterFrame i s t

/-- What every one-register instruction shares: its encoding, the fault of its operand fetch, and its register check. -/
def OneRegisterFormat (code : Byte) (ins : Byte → Instr) : Prop :=
  (∀ a rest, decode (code :: a :: rest) = .ok (ins a, rest)) ∧ OperandFetchFaults code 1 ∧ FirstFieldFaults code ins

/-- The bytes at `pc` decode to `i`. -/
def Fetches (s : State) (i : Instr) : Prop := ∃ rest, decode (s.bytesFrom s.pc) = .ok (i, rest)

/-- The value of the register an operand byte names; 0 for a byte that names none (its instruction never gets there). -/
def regOf (s : State) (a : Byte) : Nat := if h : a.toNat < 8 then (s.x ⟨a.toNat, h⟩).toNat else 0

/-- The table of R117: the `pc` after an instruction that did not fault. -/
def pcAfter (s : State) : Instr → Nat
  | .hlt => s.pc + 1
  | .push _ | .pop _ | .prn _ => s.pc + 2
  | .ldi _ _ | .not _ _ => s.pc + 3
  | .add _ _ | .sub _ _ | .mul _ _ | .div _ _ | .cmp _ _ => s.pc + 3
  | .and _ _ | .or _ _ | .xor _ _ | .shl _ _ | .shr _ _ => s.pc + 3
  | .jmp a => regOf s a
  | .jeq a => if s.flag then regOf s a else s.pc + 2
  | .jne a => if s.flag then s.pc + 2 else regOf s a
  | .call a => regOf s a
  | .ret => (s.byteAt s.sp.toNat).toNat

/-- The execute-phase checks of R244 (phase 5), for an opcode with its operand bytes. -/
def executeFault (s : State) (o : Op) (b : Byte) : Option Raise :=
  match o with
  | .div => if regOf s b = 0 then some ⟨.divisionByZero, b.toNat⟩ else none
  | .pop | .ret =>
    if s.sp.toNat = 0xF4 then some ⟨.stackUnderflow, 0xF4⟩
    else if s.sp.toNat = 255 then some ⟨.outOfBounds, 256⟩
    else none
  | .push => if s.sp.toNat = 0 then some ⟨.outOfBounds, -1⟩ else none
  | .call =>
    if s.pc + 2 = 256 then some ⟨.outOfBounds, 256⟩
    else if s.sp.toNat = 0 then some ⟨.outOfBounds, -1⟩
    else none
  | _ => none

/-- The first fault that applies, in the order of R244. -/
def firstFault (s : State) : Option FaultRecord :=
  let found (opcode : Option Byte) (r : Raise) : Option FaultRecord := some ⟨r.kind, s.pc, opcode, r.detail⟩
  if 256 ≤ s.pc then found none ⟨.outOfBounds, s.pc⟩
  else
    let c := s.byteAt s.pc
    match Op.ofCode c with
    | none => found (some c) ⟨.illegalInstruction, c.toNat⟩
    | some o =>
      let a := s.byteAt (s.pc + 1)
      let b := s.byteAt (s.pc + 2)
      if 1 ≤ o.operands ∧ 256 ≤ s.pc + 1 then found (some c) ⟨.outOfBounds, (s.pc + 1 : Nat)⟩
      else if o.operands = 2 ∧ 256 ≤ s.pc + 2 then found (some c) ⟨.outOfBounds, (s.pc + 2 : Nat)⟩
      else if o.format ≠ .f0 ∧ 8 ≤ a.toNat then found (some c) ⟨.invalidRegister, a.toNat⟩
      else if o.format = .f2rr ∧ 8 ≤ b.toNat then found (some c) ⟨.invalidRegister, b.toNat⟩
      else
        match executeFault s o b with
        | some r => found (some c) r
        | none => none

/-- The 235 opcode values R88 calls illegal, in its own decimal ranges. -/
def illegalCode (n : Nat) : Bool :=
  n == 0 || (2 ≤ n && n ≤ 16) || (18 ≤ n && n ≤ 68) || (72 ≤ n && n ≤ 79) || (81 ≤ n && n ≤ 83) ||
  (87 ≤ n && n ≤ 104) || (106 ≤ n && n ≤ 129) || (131 ≤ n && n ≤ 159) || (164 ≤ n && n ≤ 166) ||
  n == 169 || (174 ≤ n && n ≤ 255)

/-- The address a fault of kind OutOfBounds records (R240, row 1), cause by cause: the opcode fetch; the first operand byte
outside memory; the cell below the stack pointer, in PUSH and, where its return address fits a byte, in CALL; a pop at 255;
the return address of a CALL at 254. -/
def OffendingAddress (s : State) (detail : Int) : Prop :=
  (256 ≤ s.pc ∧ detail = s.pc) ∨
  (∃ (o : Op) (k : Nat), s.byteAt s.pc = o.code ∧ 1 ≤ k ∧ k ≤ o.operands ∧ s.pc + (k - 1) < 256 ∧ 256 ≤ s.pc + k ∧
    detail = (s.pc + k : Nat)) ∨
  (∃ a : Byte, a.toNat < 8 ∧ (Fetches s (.push a) ∨ (Fetches s (.call a) ∧ s.pc + 2 ≤ 255)) ∧ s.sp.toNat = 0 ∧
    detail = -1) ∨
  ((Fetches s .ret ∨ ∃ a : Byte, a.toNat < 8 ∧ Fetches s (.pop a)) ∧ s.sp.toNat = 255 ∧ detail = 256) ∨
  ∃ a : Byte, a.toNat < 8 ∧ Fetches s (.call a) ∧ s.pc = 254 ∧ detail = 256

/-- The table of R240, row by row: what the instruction at `pc` did to raise a fault of a kind, and the detail recorded. -/
def TaxonomyRow (s : State) (kind : FaultKind) (detail : Int) : Prop :=
  match kind with
  | .outOfBounds => OffendingAddress s detail
  | .invalidRegister =>
    ∃ (i : Instr) (before after : List Byte) (v : Byte), Fetches s i ∧ i.regFields = before ++ v :: after ∧
      (∀ w ∈ before, w.toNat < 8) ∧ 8 ≤ v.toNat ∧ detail = v.toNat
  | .illegalInstruction =>
    s.pc < 256 ∧ illegalCode (s.byteAt s.pc).toNat = true ∧ detail = (s.byteAt s.pc).toNat
  | .unsupportedOperation => False
  | .divisionByZero =>
    ∃ (a b : Byte) (j : RegIdx), Fetches s (.div a b) ∧ a.toNat < 8 ∧ b.toNat = j.val ∧ (s.x j).toNat = 0 ∧ detail = j.val
  | .stackUnderflow =>
    (Fetches s .ret ∨ ∃ a : Byte, a.toNat < 8 ∧ Fetches s (.pop a)) ∧ s.sp.toNat = 0xF4 ∧ detail = 0xF4
  | .loadError => False

/-- The bytes of memory from `p` on, with `v` in place of the byte at `addr`. -/
def bytesWith (s : State) (addr : Int) (v : Byte) (p : Nat) : List Byte :=
  (List.range' p (256 - p)).map fun (k : Nat) => if (k : Int) = addr then v else s.byteAt k

/-- The step from `t` is the one these bytes, taken as the bytes from `pc` on, decide (R112 to R116). -/
def StepsOn (t : State) (bytes : List Byte) : Prop :=
  (∀ i rest, decode bytes = .ok (i, rest) → step t = exec i t) ∧
  (decode bytes = .error .noOpcode → step t = .next (t.raise none ⟨.outOfBounds, t.pc⟩)) ∧
  (∀ c, decode bytes = .error (.illegal c) → step t = .next (t.raise (some c) ⟨.illegalInstruction, c.toNat⟩)) ∧
  ∀ o, decode bytes = .error (.truncated o) → step t = .next (t.raise (some o.code) ⟨.outOfBounds, 256⟩)

/-- Pushing a sequence of bytes, one push after another. -/
def pushAll (s : State) : List Byte → Except Raise State
  | [] => .ok s
  | v :: vs =>
    match push s v with
    | .error e => .error e
    | .ok t => pushAll t vs

/-- How many bytes a list of image lines holds. -/
def bytesIn (ls : List (List Char)) : Nat := (ls.filter fun l => match readLine l with | .byte _ => true | _ => false).length

/-- No line is malformed. -/
def noneMalformed (ls : List (List Char)) : Prop := ∀ l ∈ ls, readLine l ≠ .malformed

/-- The value of a string of binary digits, the most significant first. -/
def binaryValue (token : List Char) : Nat := token.foldl (fun n c => 2 * n + if c = '1' then 1 else 0) 0

/-! How R91 and R92 write a program. What they do not say is log 11's: leading zeros, the cases of `SP`, `0x`, `0b` and the
hexadecimal digits, spaces and tabs where blanks may stand, and empty statements. -/

/-- Spaces and tabs, or nothing. -/
def Blanks (l : List Char) : Prop := ∀ c ∈ l, c = ' ' ∨ c = '\t'

/-- A register name: `R0` to `R7`, `r0` to `r7`, and `SP` for `R7`. -/
def SpellsRegister (a : Byte) (word : List Char) : Prop :=
  (∃ r d : Char, (r = 'R' ∨ r = 'r') ∧ word = [r, d] ∧ ['0', '1', '2', '3', '4', '5', '6', '7'][a.toNat]? = some d) ∨
  (a.toNat = 7 ∧ word = ['S', 'P'])

/-- A digit of value `d`. -/
def SpellsDigit (d : Nat) (c : Char) : Prop :=
  "0123456789abcdef".toList[d]? = some c ∨ "0123456789ABCDEF".toList[d]? = some c

/-- A string of digits of a base, the most significant first, and its value. -/
inductive SpellsNumber (base : Nat) : Nat → List Char → Prop where
  | one {d : Nat} {c : Char} : d < base → SpellsDigit d c → SpellsNumber base d [c]
  | more {n d : Nat} {cs : List Char} {c : Char} : SpellsNumber base n cs → d < base → SpellsDigit d c →
      SpellsNumber base (base * n + d) (cs ++ [c])

/-- A byte literal: decimal, `0x` hexadecimal or `0b` binary. -/
def SpellsByte (v : Byte) (word : List Char) : Prop :=
  SpellsNumber 10 v.toNat word ∨
  (∃ ds, word = '0' :: 'x' :: ds ∧ SpellsNumber 16 v.toNat ds) ∨
  ∃ ds, word = '0' :: 'b' :: ds ∧ SpellsNumber 2 v.toNat ds

/-- The operand words of an instruction, shape by shape; `NOT Ra` is `NOT Ra, 0` (R92). -/
def SpellsOperands (i : Instr) (words : List (List Char)) : Prop :=
  match i with
  | .hlt | .ret => words = []
  | .push a | .pop a | .prn a | .call a | .jmp a | .jeq a | .jne a => ∃ w, words = [w] ∧ SpellsRegister a w
  | .not a u =>
    (∃ w w', words = [w, w'] ∧ SpellsRegister a w ∧ (SpellsByte u w' ∨ SpellsRegister u w')) ∨
    (u.toNat = 0 ∧ ∃ w, words = [w] ∧ SpellsRegister a w)
  | .ldi a v => ∃ w w', words = [w, w'] ∧ SpellsRegister a w ∧ SpellsByte v w'
  | .add a b | .sub a b | .mul a b | .div a b | .cmp a b | .and a b | .or a b | .xor a b | .shl a b | .shr a b =>
    ∃ w w', words = [w, w'] ∧ SpellsRegister a w ∧ SpellsRegister b w'

/-- The operand words after the mnemonic, separated by a comma that may stand between blanks. -/
def operandText (gap left right : List Char) : List (List Char) → List Char
  | [] => []
  | [w] => gap ++ w
  | w :: w' :: _ => gap ++ w ++ left ++ [','] ++ right ++ w'

/-- One statement: the mnemonic in any mix of cases, then the operands, with blanks around. -/
def SpellsStatement (i : Instr) (text : List Char) : Prop :=
  ∃ (before name gap left right after : List Char) (words : List (List Char)),
    Blanks before ∧ Blanks gap ∧ Blanks left ∧ Blanks right ∧ Blanks after ∧ gap ≠ [] ∧
    name.map Char.toUpper = (opName i.op).toList ∧ SpellsOperands i words ∧
    text = before ++ name ++ operandText gap left right words ++ after

/-- A line: statements separated by `;`, each written out or left empty, then a comment or none. -/
inductive SpellsLine : List Instr → List Char → Prop where
  | empty {text : List Char} : Blanks text → SpellsLine [] text
  | statement {i : Instr} {text : List Char} : SpellsStatement i text → SpellsLine [i] text
  | more {is js : List Instr} {text rest : List Char} : SpellsLine is text → SpellsLine js rest →
      SpellsLine (is ++ js) (text ++ [';'] ++ rest)

/-- A program text: lines, each with a comment from `#` to its end or with none. -/
inductive SpellsText : List Instr → List Char → Prop where
  | line {is : List Instr} {text : List Char} : SpellsLine is text → SpellsText is text
  | commented {is : List Instr} {text comment : List Char} : SpellsLine is text → '\n' ∉ comment →
      SpellsText is (text ++ ['#'] ++ comment)
  | more {is js : List Instr} {text rest : List Char} : SpellsText is text → SpellsText js rest →
      SpellsText (is ++ js) (text ++ ['\n'] ++ rest)

end Sys2Proof.Claims

section

open Sys2Proof Sys2Proof.Machine Sys2Proof.Claims

/-- R80 to R90: a byte list decodes to an instruction exactly when it is that instruction's encoding followed by the rest, at
every value of every operand byte (R89: operand bytes are never illegal as encodings, so no well-formedness is needed). -/
def Obligations.DecodeAndEncodeAgree : Prop :=
  ∀ (i : Instr) (bytes rest : List Byte), decode bytes = .ok (i, rest) ↔ bytes = encode i ++ rest

/-- R80: an instruction is its opcode byte and the operand bytes its opcode's operand count gives it, 1 to 3 bytes in all, and
the opcode byte alone settles how many. -/
def Obligations.TheOpcodeAloneGivesTheLength : Prop :=
  ∀ (bytes rest : List Byte) (i : Instr), decode bytes = .ok (i, rest) →
    bytes.head? = some i.op.code ∧ bytes.length = (1 + i.op.operands) + rest.length ∧ 1 + i.op.operands ≤ 3 ∧
    ∀ (others rest' : List Byte) (i' : Instr), others.head? = bytes.head? → decode others = .ok (i', rest') →
      i'.op = i.op ∧ others.length - rest'.length = bytes.length - rest.length

/-- R86: the opcode map, each row's value and operand count, and words of every format written out from it. -/
def Obligations.OpcodeMapIsTheTable : Prop :=
  Op.all.map (fun o => (o, o.code.toNat, o.operands)) =
    [(.hlt, 1, 0), (.ret, 17, 0), (.push, 69, 1), (.pop, 70, 1), (.prn, 71, 1), (.call, 80, 1), (.jmp, 84, 1)] ++
    [(.jeq, 85, 1), (.jne, 86, 1), (.not, 105, 2), (.ldi, 130, 2), (.add, 160, 2), (.sub, 161, 2), (.mul, 162, 2)] ++
    [(.div, 163, 2), (.cmp, 167, 2), (.and, 168, 2), (.or, 170, 2), (.xor, 171, 2), (.shl, 172, 2), (.shr, 173, 2)] ∧
  decode [0b00000001#8] = .ok (.hlt, []) ∧
  decode [0b01000101#8, 0b00000011#8] = .ok (.push 3, []) ∧
  decode [0b10000010#8, 0b00000101#8, 0b10101011#8] = .ok (.ldi 5 171, []) ∧
  decode [0b10100001#8, 0b00000001#8, 0b00000010#8] = .ok (.sub 1 2, []) ∧
  decode [0b01101001#8, 0b00000000#8, 0b11001000#8] = .ok (.not 0 200, [])

/-- R88: the illegal opcodes are exactly the 235 values it lists; fetching one raises IllegalInstruction, with no operand
byte fetched (also when the operand addresses do not exist). -/
def Obligations.IllegalOpcodesAreTheUnlistedValues : Prop :=
  (∀ (c : Byte) (rest : List Byte), decode (c :: rest) = .error (.illegal c) ↔ illegalCode c.toNat = true) ∧
  ((List.range 256).filter illegalCode).length = 235 ∧
  ∀ s : State, s.status = .running → s.pc < 256 → illegalCode (s.byteAt s.pc).toNat = true →
    step s = .next (s.raise (some (s.byteAt s.pc)) ⟨.illegalInstruction, (s.byteAt s.pc).toNat⟩)

/-- R270: the state after reset. -/
def Obligations.ResetStateIsTheSpecs : Prop :=
  (∀ r : RegIdx, (State.reset.x r).toNat = if r.val = 7 then 0xF4 else 0) ∧
  State.reset.pc = 0 ∧ State.reset.flag = false ∧ State.reset.halted = false ∧ State.reset.fault = none ∧
  (∀ k : Nat, State.reset.byteAt k = 0#8) ∧ State.reset.out = [] ∧ State.reset.status = .running

/-- R28, R32, R270: the invariant holds after reset. Its clause on the canonical form of the memory list is the model's own
(log 7); the spec knows cells only. -/
def Obligations.ResetMeetsTheInvariant : Prop := State.reset.Inv

/-- R28, R32, R50, R182, R240, R243: every step keeps the invariant: memory inside the address space, `pc` in
`[0, MEM_SIZE]`, Halted and Faulted exclusive, a legal fault record that names the instruction at `pc`, and output lines
that are lines of PRN; and memory canonical, the model's own clause (log 7). -/
def Obligations.EveryStepKeepsTheInvariant : Prop :=
  ∀ s t : State, s.Inv → step s = .next t → t.Inv

/-- R28, R32, R278: every state of every run, of whatever program image, meets the invariant. Its clause on the canonical form
of the memory list is the model's own (log 7). -/
def Obligations.EveryStateOfEveryRunMeetsTheInvariant : Prop :=
  ∀ (text : List Char) (s t : State), launch text = .ok s → Reaches s t → t.Inv

/-- R110: in a Running state whose bytes at `pc` decode to an instruction, the step is that instruction's meaning. -/
def Obligations.StepRunsTheDecodedInstruction : Prop :=
  ∀ (s : State) (i : Instr) (rest : List Byte), s.status = .running → decode (s.bytesFrom s.pc) = .ok (i, rest) →
    step s = exec i s

/-- R112 to R114: where the bytes at `pc` decode to nothing, the decoder's reason is the fault the step raises. -/
def Obligations.UndecodableBytesRaiseTheirFault : Prop :=
  ∀ s : State, s.status = .running →
    (decode (s.bytesFrom s.pc) = .error .noOpcode → step s = .next (s.raise none ⟨.outOfBounds, s.pc⟩)) ∧
    (∀ c, decode (s.bytesFrom s.pc) = .error (.illegal c) →
      step s = .next (s.raise (some c) ⟨.illegalInstruction, c.toNat⟩)) ∧
    (∀ o, decode (s.bytesFrom s.pc) = .error (.truncated o) →
      step s = .next (s.raise (some o.code) ⟨.outOfBounds, 256⟩))

/-- R111: from Halted or Faulted no step exists, and a run is a no-op that changes nothing and raises nothing; a step is
taken in every Running state. That `step` answers there with the stops named halted and faulted is the model's reading of
"no step exists" (log 3). -/
def Obligations.StepsAreTakenExactlyWhileRunning : Prop :=
  ∀ s : State,
    (s.status = .running ↔ ∃ t, step s = .next t) ∧
    (s.status = .halted → step s = .fault .halted) ∧
    (∀ r, s.status = .faulted → s.fault = some r → step s = .fault (.faulted r)) ∧
    (s.status ≠ .running → ∀ budget, run budget s = .ended s)

/-- R112: an opcode fetch at or past the end of memory. -/
def Obligations.OpcodeFetchPastMemoryRaises : Prop :=
  ∀ s : State, s.status = .running →
    (256 ≤ s.pc → step s = .next (s.raise none ⟨.outOfBounds, s.pc⟩)) ∧
    (s.pc < 256 → ∀ t r, step s = .next t → t.fault = some r → r.opcode = some (s.byteAt s.pc))

/-- R114: operand bytes are read from `pc + 1`, then `pc + 2`; the first address at or past the end of memory is reported. -/
def Obligations.OperandBytesAreFetchedInOrder : Prop :=
  ∀ (s : State) (o : Op), s.status = .running → s.pc < 256 → s.byteAt s.pc = o.code →
    OperandFetchFaults o.code o.operands ∧
    (s.pc + o.operands < 256 → step s = exec (o.build (s.byteAt (s.pc + 1)) (s.byteAt (s.pc + 2))) s)

/-- R115: every register field the format has is checked in the order `a`, `b`, the first that is 8 or more raises
InvalidRegister of that byte, and nothing else is checked. -/
def Obligations.RegisterFieldsAreCheckedInOrder : Prop :=
  (∀ (i : Instr) (s : State) (before after : List Byte) (v : Byte), i.regFields = before ++ v :: after →
    (∀ w ∈ before, w.toNat < 8) → 8 ≤ v.toNat →
    exec i s = .next (s.raise (some i.op.code) ⟨.invalidRegister, v.toNat⟩)) ∧
  (∀ (i : Instr) (s t : State) (r : FaultRecord), (∀ w ∈ i.regFields, w.toNat < 8) → s.fault = none →
    exec i s = .next t → t.fault = some r → r.kind ≠ .invalidRegister) ∧
  ∀ i : Instr, i.regFields =
    match i.op.format with
    | .f0 => []
    | .f1r | .f2ri | .f2ru => i.operandBytes.take 1
    | .f2rr => i.operandBytes

/-- R117: the `pc` after every instruction, and after a step that faults. -/
def Obligations.ProgramCounterUpdates : Prop :=
  ∀ (s t : State) (i : Instr), Fetches s i → step s = .next t →
    (t.fault = none → t.pc = pcAfter s i) ∧ (t.fault ≠ none → t.pc = s.pc)

/-- R29: the comparison flag is false at reset, only CMP writes it, a step that faults does not change it, and only JEQ and
JNE read it. -/
def Obligations.OnlyCmpWritesTheFlagAndOnlyBranchesReadIt : Prop :=
  State.reset.flag = false ∧
  (∀ s t : State, step s = .next t → t.flag ≠ s.flag → ∃ a b, Fetches s (.cmp a b)) ∧
  (∀ s t : State, step s = .next t → t.fault ≠ none → t.flag = s.flag) ∧
  ∀ (i : Instr) (s t : State) (c : Bool), (∀ a, i ≠ .jeq a ∧ i ≠ .jne a) → exec i s = .next t →
    ∃ u, exec i (s.setFlag c) = .next u ∧ u.setFlag false = t.setFlag false

/-- R30: the halted flag is false at reset, exactly HLT sets it, and nothing clears it. -/
def Obligations.ExactlyHltHalts : Prop :=
  State.reset.halted = false ∧
  (∀ s t : State, step s = .next t → (t.halted = true ↔ Fetches s .hlt)) ∧
  ∀ s t : State, s.halted = true → Reaches s t → t = s

/-- R50, R53: only PUSH and CALL write memory, and they write one byte, at the address a push stores to. -/
def Obligations.OnlyPushAndCallWriteMemory : Prop :=
  ∀ (s t : State) (k : Nat), step s = .next t → t.byteAt k ≠ s.byteAt k →
    (k : Int) = pushAddr s ∧ ∃ a, Fetches s (.push a) ∨ Fetches s (.call a)

/-- R41, R182: only PRN produces output, one line each time, and no line is ever taken back. -/
def Obligations.OnlyPrnEmitsOneLine : Prop :=
  ∀ s t : State, step s = .next t →
    t.out = s.out ∨
    ∃ (a : Byte) (i : RegIdx), Fetches s (.prn a) ∧ a.toNat = i.val ∧ t.out = s.out ++ [prnLine (s.x i)]

/-- R41, R57: the output stream is never read: two runs that differ in it alone stay alike in everything else. -/
def Obligations.OutputStreamIsNeverRead : Prop :=
  ∀ (s t : State) (earlier : List String), step s = .next t →
    ∃ lines, t.out = s.out ++ lines ∧
      step { s with out := earlier } = .next { t with out := earlier ++ lines }

/-- R242: a faulting step changes the fault status alone, from none to the record; `pc` is still the faulting instruction's,
halted is false, the status becomes Faulted, and no further step is taken (the stop `step` answers with is named by
log 3). -/
def Obligations.FaultsArePrecise : Prop :=
  ∀ (s t : State) (r : FaultRecord), step s = .next t → t.fault = some r →
    s.fault = none ∧ (∀ k, t.x k = s.x k) ∧ KeepsMemory s t ∧ t.pc = s.pc ∧ t.flag = s.flag ∧ t.out = s.out ∧
    s.halted = false ∧ t.halted = false ∧ t.status = .faulted ∧ step t = .fault (.faulted r)

/-- R243: the record of a fault: its kind with the code of R240 and the detail that row of R240 records for what the
instruction did, the address of the opcode byte, and the opcode byte, or none when the fault is the opcode fetch itself. -/
def Obligations.FaultRecordsHoldTheirContext : Prop :=
  ∀ (s t : State) (r : FaultRecord), step s = .next t → t.fault = some r →
    r.pc = s.pc ∧ (256 ≤ s.pc → r.opcode = none ∧ r.kind = .outOfBounds) ∧
    (s.pc < 256 → r.opcode = some (s.byteAt s.pc)) ∧ r.Legal ∧ TaxonomyRow s r.kind r.detail ∧
    (r.kind.code, r.kind) ∈
      ([(1, .outOfBounds), (2, .invalidRegister), (3, .illegalInstruction), (5, .divisionByZero), (6, .stackUnderflow)] :
        List (Nat × FaultKind))

/-- R244: a step reports exactly one fault, the first in the order of R244 that applies, and raises nothing when none
applies. -/
def Obligations.FirstFaultInOrderIsReported : Prop :=
  ∀ s : State, s.status = .running →
    (∀ r, firstFault s = some r → step s = .next { s with fault := some r }) ∧
    (firstFault s = none → ∃ t, step s = .next t ∧ t.fault = none)

/-- R144: ADD. -/
def Obligations.AddWrapsModulo256 : Prop := ArithmeticRule 0xA0#8 .add fun va vb => (va + vb) % 256

/-- R145: SUB subtracts. -/
def Obligations.SubWrapsModulo256 : Prop := ArithmeticRule 0xA1#8 .sub fun va vb => (va + 256 - vb) % 256

/-- R146: MUL. -/
def Obligations.MulKeepsTheLowByte : Prop := ArithmeticRule 0xA2#8 .mul fun va vb => va * vb % 256

/-- R147: DIV, and its zero divisor. -/
def Obligations.DivTruncatesOrRaises : Prop :=
  TwoRegisterFormat 0xA3#8 .div ∧
  (∀ (s : State) (a b : Byte) (i j : RegIdx), a.toNat = i.val → b.toNat = j.val → (s.x j).toNat ≠ 0 →
    ∃ t, exec (.div a b) s = .next t ∧ (t.x i).toNat = (s.x i).toNat / (s.x j).toNat ∧
      t.pc = s.pc + 3 ∧ RegisterFrame i s t) ∧
  ∀ (s : State) (a b : Byte) (j : RegIdx), a.toNat < 8 → b.toNat = j.val → (s.x j).toNat = 0 →
    exec (.div a b) s = .next (s.raise (some 0xA3#8) ⟨.divisionByZero, j.val⟩)

/-- R148: AND. -/
def Obligations.AndIsBitByBit : Prop := BitwiseRule 0xA8#8 .and fun p q => p && q

/-- R149: OR. -/
def Obligations.OrIsBitByBit : Prop := BitwiseRule 0xAA#8 .or fun p q => p || q

/-- R150: XOR. -/
def Obligations.XorIsBitByBit : Prop := BitwiseRule 0xAB#8 .xor fun p q => p != q

/-- R151: SHL by the whole 8-bit amount, 0 from an amount of 8 on. -/
def Obligations.ShlByTheWholeAmount : Prop :=
  ArithmeticRule 0xAC#8 .shl (fun va amount => va * 2 ^ amount % 256) ∧
  ArithmeticRule 0xAC#8 .shl fun va amount => if 8 ≤ amount then 0 else va * 2 ^ amount % 256

/-- R152: SHR, logical, by the whole 8-bit amount, 0 from an amount of 8 on. -/
def Obligations.ShrByTheWholeAmount : Prop :=
  ArithmeticRule 0xAD#8 .shr (fun va amount => va / 2 ^ amount) ∧
  ArithmeticRule 0xAD#8 .shr fun va amount => if 8 ≤ amount then 0 else va / 2 ^ amount

/-- R153: NOT; its second operand byte is fetched, and never validated or read. -/
def Obligations.NotComplementsAndIgnoresItsSecondByte : Prop :=
  (∀ a u rest, decode (0x69#8 :: a :: u :: rest) = .ok (.not a u, rest)) ∧
  OperandFetchFaults 0x69#8 2 ∧
  (∀ u, FirstFieldFaults 0x69#8 fun a => .not a u) ∧
  ∀ (s : State) (a u : Byte) (i : RegIdx), a.toNat = i.val →
    ∃ t, exec (.not a u) s = .next t ∧ (t.x i).toNat = 255 - (s.x i).toNat ∧ t.pc = s.pc + 3 ∧ RegisterFrame i s t

/-- R154: CMP writes the flag, always, and no register. -/
def Obligations.CmpSetsTheFlagToEquality : Prop :=
  TwoRegisterFormat 0xA7#8 .cmp ∧
  ∀ (s : State) (a b : Byte) (i j : RegIdx), a.toNat = i.val → b.toNat = j.val →
    ∃ t, exec (.cmp a b) s = .next t ∧ (t.flag = true ↔ s.x i = s.x j) ∧ t.pc = s.pc + 3 ∧
      KeepsRegs s t ∧ KeepsStatusAndOutput s t ∧ KeepsMemory s t

/-- R180: LDI. -/
def Obligations.LdiLoadsTheWholeByte : Prop :=
  (∀ a v rest, decode (0x82#8 :: a :: v :: rest) = .ok (.ldi a v, rest)) ∧
  OperandFetchFaults 0x82#8 2 ∧
  (∀ v, FirstFieldFaults 0x82#8 fun a => .ldi a v) ∧
  ∀ (s : State) (a v : Byte) (i : RegIdx), a.toNat = i.val →
    ∃ t, exec (.ldi a v) s = .next t ∧ t.x i = v ∧ t.pc = s.pc + 3 ∧ RegisterFrame i s t

/-- R181: PRN emits the line of the register's value and writes nothing else. -/
def Obligations.PrnEmitsTheRegister : Prop :=
  OneRegisterFormat 0x47#8 .prn ∧
  ∀ (s : State) (a : Byte) (i : RegIdx), a.toNat = i.val →
    ∃ t, exec (.prn a) s = .next t ∧
      t.out = s.out ++ ["value: " ++ String.ofList (Nat.toDigits 10 (s.x i).toNat)] ∧ t.pc = s.pc + 2 ∧
      KeepsRegs s t ∧ t.flag = s.flag ∧ t.halted = s.halted ∧ t.fault = s.fault ∧ KeepsMemory s t

/-- R182: a line is `value: ` and the unsigned decimal digits, without sign, padding or leading zeros, and the stream ends
each line with one newline character. -/
def Obligations.LinesAreUnsignedDecimal : Prop :=
  (∀ v : Byte, (prnLine v).toList = "value: ".toList ++ decimalDigits v ∧
    parseDigits 10 (decimalDigits v) = some v.toNat ∧
    (∀ c ∈ decimalDigits v, c.isDigit = true) ∧
    ((decimalDigits v).head? = some '0' → decimalDigits v = ['0'])) ∧
  ∀ (out : List String) (v : Byte), streamText (out ++ [prnLine v]) = streamText out ++ (prnLine v).toList ++ ['\n']

/-- R193: PUSH. -/
def Obligations.PushStoresBelowTheStackPointer : Prop :=
  OneRegisterFormat 0x45#8 .push ∧
  (∀ (s : State) (a : Byte) (i : RegIdx), a.toNat = i.val → s.sp.toNat ≠ 0 →
    ∃ t, exec (.push a) s = .next t ∧ PushFrame (s.x i) s t ∧ t.pc = s.pc + 2) ∧
  ∀ (s : State) (a : Byte), a.toNat < 8 → s.sp.toNat = 0 →
    exec (.push a) s = .next (s.raise (some 0x45#8) ⟨.outOfBounds, -1⟩)

/-- R194: POP; for R7 the popped byte stays, the increment overwritten. -/
def Obligations.PopReadsThenIncrements : Prop :=
  OneRegisterFormat 0x46#8 .pop ∧
  (∀ (s : State) (a : Byte) (i : RegIdx), a.toNat = i.val → s.sp.toNat ≠ 0xF4 → s.sp.toNat ≠ 255 →
    ∃ t, exec (.pop a) s = .next t ∧ t.x i = s.byteAt s.sp.toNat ∧
      (i ≠ Config.spIndex → t.sp.toNat = s.sp.toNat + 1) ∧
      (∀ r : RegIdx, r ≠ i → r ≠ Config.spIndex → t.x r = s.x r) ∧
      t.pc = s.pc + 2 ∧ t.flag = s.flag ∧ KeepsStatusAndOutput s t ∧ KeepsMemory s t) ∧
  (∀ (s : State) (a : Byte), a.toNat < 8 → s.sp.toNat = 0xF4 →
    exec (.pop a) s = .next (s.raise (some 0x46#8) ⟨.stackUnderflow, 0xF4⟩)) ∧
  ∀ (s : State) (a : Byte), a.toNat < 8 → s.sp.toNat = 255 →
    exec (.pop a) s = .next (s.raise (some 0x46#8) ⟨.outOfBounds, 256⟩)

/-- R210: HLT. That the stop after it is named halted is log 3's. -/
def Obligations.HltHalts : Prop :=
  (∀ rest, decode (0x01#8 :: rest) = .ok (.hlt, rest)) ∧
  ∀ s : State, ∃ t, exec .hlt s = .next t ∧ t.halted = true ∧ t.status = .halted ∧ t.pc = s.pc + 1 ∧
    KeepsRegs s t ∧ t.flag = s.flag ∧ t.fault = s.fault ∧ t.out = s.out ∧ KeepsMemory s t ∧ step t = .fault .halted

/-- R212: JMP. -/
def Obligations.JmpGoesToTheRegister : Prop :=
  OneRegisterFormat 0x54#8 .jmp ∧
  ∀ (s : State) (a : Byte) (i : RegIdx), a.toNat = i.val →
    ∃ t, exec (.jmp a) s = .next t ∧ t.pc = (s.x i).toNat ∧ TransferFrame s t

/-- R213: JEQ jumps exactly when the flag is true; its register is validated either way. -/
def Obligations.JeqJumpsIffTheFlagIsTrue : Prop :=
  OneRegisterFormat 0x55#8 .jeq ∧
  ∀ (s : State) (a : Byte) (i : RegIdx), a.toNat = i.val →
    ∃ t, exec (.jeq a) s = .next t ∧ (s.flag = true → t.pc = (s.x i).toNat) ∧ (s.flag = false → t.pc = s.pc + 2) ∧
      TransferFrame s t

/-- R214: JNE jumps exactly when the flag is false; its register is validated either way. -/
def Obligations.JneJumpsIffTheFlagIsFalse : Prop :=
  OneRegisterFormat 0x56#8 .jne ∧
  ∀ (s : State) (a : Byte) (i : RegIdx), a.toNat = i.val →
    ∃ t, exec (.jne a) s = .next t ∧ (s.flag = false → t.pc = (s.x i).toNat) ∧ (s.flag = true → t.pc = s.pc + 2) ∧
      TransferFrame s t

/-- R215: CALL pushes the return address and jumps to the register's value before the push; the return address that does not
fit a byte is found before the stack's end. -/
def Obligations.CallPushesTheReturnAddress : Prop :=
  OneRegisterFormat 0x50#8 .call ∧
  (∀ (s : State) (a : Byte) (i : RegIdx), a.toNat = i.val → s.pc + 2 ≤ 255 → s.sp.toNat ≠ 0 →
    ∃ t, exec (.call a) s = .next t ∧ PushFrame (BitVec.ofNat 8 (s.pc + 2)) s t ∧ t.pc = (s.x i).toNat) ∧
  (∀ (s : State) (a : Byte), a.toNat < 8 → 255 < s.pc + 2 →
    exec (.call a) s = .next (s.raise (some 0x50#8) ⟨.outOfBounds, (s.pc + 2 : Nat)⟩)) ∧
  ∀ (s : State) (a : Byte), a.toNat < 8 → s.pc + 2 ≤ 255 → s.sp.toNat = 0 →
    exec (.call a) s = .next (s.raise (some 0x50#8) ⟨.outOfBounds, -1⟩)

/-- R216: RET. -/
def Obligations.RetJumpsToThePoppedByte : Prop :=
  (∀ rest, decode (0x11#8 :: rest) = .ok (.ret, rest)) ∧
  (∀ s : State, s.sp.toNat ≠ 0xF4 → s.sp.toNat ≠ 255 →
    ∃ t, exec .ret s = .next t ∧ t.pc = (s.byteAt s.sp.toNat).toNat ∧ t.sp.toNat = s.sp.toNat + 1 ∧
      KeepsRegsBut Config.spIndex s t ∧ t.flag = s.flag ∧ KeepsStatusAndOutput s t ∧ KeepsMemory s t) ∧
  (∀ s : State, s.sp.toNat = 0xF4 → exec .ret s = .next (s.raise (some 0x11#8) ⟨.stackUnderflow, 0xF4⟩)) ∧
  ∀ s : State, s.sp.toNat = 255 → exec .ret s = .next (s.raise (some 0x11#8) ⟨.outOfBounds, 256⟩)

/-- R193, R194: PUSH and then POP of one register, R7 too, restores every register and advances `pc` by 4. The exception
follows from R196: from `SP = 0xF5` the push leaves `SP = 0xF4`, which the POP takes for the empty stack. -/
def Obligations.PushThenPopRestoresEveryRegister : Prop :=
  ∀ (s : State) (a : Byte) (i : RegIdx), a.toNat = i.val → s.sp.toNat ≠ 0 →
    ∃ t, exec (.push a) s = .next t ∧
      (s.sp.toNat ≠ 0xF5 → ∃ u, exec (.pop a) t = .next u ∧ KeepsRegs s u ∧ u.pc = s.pc + 4 ∧ u.flag = s.flag ∧
        KeepsStatusAndOutput s u) ∧
      (s.sp.toNat = 0xF5 → exec (.pop a) t = .next (t.raise (some 0x46#8) ⟨.stackUnderflow, 0xF4⟩))

/-- R217: after a CALL, a RET in any state whose stack pointer and top of stack are as the CALL left them returns to the
instruction after the CALL, with the stack pointer as before it. (`SP = 0xF5` is left out for the reason of R196.) -/
def Obligations.CallThenRetReturnsAfterTheCall : Prop :=
  ∀ (s : State) (a : Byte) (i : RegIdx), a.toNat = i.val → s.pc + 2 ≤ 255 → s.sp.toNat ≠ 0 → s.sp.toNat ≠ 0xF5 →
    ∃ t, exec (.call a) s = .next t ∧
      ∀ u : State, u.sp = t.sp → u.byteAt u.sp.toNat = t.byteAt t.sp.toNat →
        ∃ v, exec .ret u = .next v ∧ v.pc = s.pc + 2 ∧ v.sp = s.sp

/-- R195: from the empty stack any 244 pushes succeed, from 0xF3 down to 0x00, and the next raises OutOfBounds(-1). -/
def Obligations.TheStackHolds244Bytes : Prop :=
  ∀ (s : State) (vs : List Byte), s.sp.toNat = 0xF4 →
    (vs.length ≤ 244 → ∃ t, pushAll s vs = .ok t ∧ t.sp.toNat = 0xF4 - vs.length ∧
      (∀ (n : Nat) (v : Byte), vs[n]? = some v → t.byteAt (0xF3 - n) = v) ∧
      ∀ k : Nat, (k < 0xF4 - vs.length ∨ 0xF4 ≤ k) → t.byteAt k = s.byteAt k) ∧
    (244 < vs.length → pushAll s vs = .error ⟨.outOfBounds, -1⟩)

/-- R196: a pop underflows exactly when the stack pointer is 0xF4, in POP and in RET alike. -/
def Obligations.UnderflowExactlyAtTheSentinel : Prop :=
  ∀ s : State, s.fault = none →
    (∀ (a : Byte) (t : State), a.toNat < 8 → exec (.pop a) s = .next t →
      ((∃ r, t.fault = some r ∧ r.kind = .stackUnderflow) ↔ s.sp.toNat = 0xF4)) ∧
    ∀ t : State, exec .ret s = .next t →
      ((∃ r, t.fault = some r ∧ r.kind = .stackUnderflow) ↔ s.sp.toNat = 0xF4)

/-- R51, R52: the memory interface. An address outside `[0, MEM_SIZE)` raises OutOfBounds of it; inside, a read returns the
byte and a write changes that byte alone. -/
def Obligations.MemoryInterfaceReadsWhatWasWritten : Prop :=
  ∀ (s : State) (addr : Int) (v : Byte),
    ((addr < 0 ∨ 256 ≤ addr) →
      memRead s addr = .error ⟨.outOfBounds, addr⟩ ∧ memWrite s addr v = .error ⟨.outOfBounds, addr⟩) ∧
    (0 ≤ addr → addr < 256 →
      memRead s addr = .ok (s.byteAt addr.toNat) ∧
      ∃ t, memWrite s addr v = .ok t ∧ memRead t addr = .ok v ∧
        (∀ k : Nat, (k : Int) ≠ addr → t.byteAt k = s.byteAt k) ∧
        KeepsRegs s t ∧ t.pc = s.pc ∧ t.flag = s.flag ∧ KeepsStatusAndOutput s t)

/-- R64, R281: self-modifying code takes effect at once. After a PUSH or a CALL, the next step is decided by memory as it was
with the pushed byte in its place, whatever byte and whichever place that is. So a byte pushed to the address the next
fetch reads is the next opcode byte, before the bytes that were behind it; a pushed HLT halts. -/
def Obligations.PushedByteIsTheNextInstruction : Prop :=
  (∀ (s : State) (a : Byte) (i : RegIdx), s.status = .running → Fetches s (.push a) → a.toNat = i.val → s.sp.toNat ≠ 0 →
    ∃ t, step s = .next t ∧ t.pc = s.pc + 2 ∧ StepsOn t (bytesWith s (pushAddr s) (s.x i) (s.pc + 2)) ∧
      (pushAddr s = (s.pc + 2 : Nat) →
        StepsOn t (s.x i :: s.bytesFrom (s.pc + 3)) ∧
        (s.x i = 0x01#8 → Fetches t .hlt ∧ ∃ u, step t = .next u ∧ u.status = .halted ∧ u.pc = s.pc + 3))) ∧
  ∀ (s : State) (a : Byte) (i : RegIdx), s.status = .running → Fetches s (.call a) → a.toNat = i.val →
    s.pc + 2 ≤ 255 → s.sp.toNat ≠ 0 →
    ∃ t, step s = .next t ∧ t.pc = (s.x i).toNat ∧
      StepsOn t (bytesWith s (pushAddr s) (BitVec.ofNat 8 (s.pc + 2)) (s.x i).toNat) ∧
      (pushAddr s = ((s.x i).toNat : Int) →
        StepsOn t (BitVec.ofNat 8 (s.pc + 2) :: s.bytesFrom ((s.x i).toNat + 1)))

/-- R33: the model's own canonical form: memories that read alike are the same list. -/
def Obligations.EqualMemoriesAreOneList : Prop :=
  ∀ m n : Memory, m.wf = true → n.wf = true → (∀ k, m.get k = n.get k) → m = n

/-- R93, R271, R278: loading the image text of at most `MEM_SIZE` bytes gives the launch state: byte k at address k, 0 past
the image, and everything else as after reset. -/
def Obligations.LaunchStateHoldsTheImage : Prop :=
  ∀ bytes : List Byte, bytes.length ≤ 256 →
    ∃ s, launch (imageText bytes) = .ok s ∧ (∀ k : Nat, s.byteAt k = bytes.getD k 0#8) ∧
      (∀ r : RegIdx, (s.x r).toNat = if r.val = 7 then 0xF4 else 0) ∧
      s.pc = 0 ∧ s.flag = false ∧ s.halted = false ∧ s.fault = none ∧ s.out = []

/-- R272: one line of the image text: what stands before the first `#`, between surrounding spaces and tabs, is nothing, or a
token, which is a byte exactly when it is made of `0` and `1` and its value is below 256. -/
def Obligations.ImageLinesAreBinaryTokens : Prop :=
  ∀ left right rest : List Char, (∀ c ∈ left ++ right, c = ' ' ∨ c = '\t') → (rest = [] ∨ ∃ cs, rest = '#' :: cs) →
    readLine (left ++ rest) = .skipped ∧
    ∀ token : List Char, '#' ∉ token → token.head?.any isBlank = false → token.getLast?.any isBlank = false → token ≠ [] →
      ((∀ c ∈ token, c = '0' ∨ c = '1') → binaryValue token < 256 →
        readLine (left ++ token ++ right ++ rest) = .byte (BitVec.ofNat 8 (binaryValue token))) ∧
      (((∃ c ∈ token, c ≠ '0' ∧ c ≠ '1') ∨ 256 ≤ binaryValue token) →
        readLine (left ++ token ++ right ++ rest) = .malformed)

/-- R273: the LoadError names the first line that is malformed or whose byte has no cell left; where there is no such line
the load succeeds. -/
def Obligations.LoadErrorNamesTheFirstOffendingLine : Prop :=
  (∀ (s : State) (before after : List (List Char)) (l : List Char), noneMalformed before → bytesIn before ≤ 256 →
    (readLine l = .malformed ∨ (bytesIn before = 256 ∧ ∃ v, readLine l = .byte v)) →
    loadLines s 0 1 (before ++ l :: after) = .error ⟨.loadError, (before.length + 1 : Nat)⟩) ∧
  ∀ (s : State) (ls : List (List Char)), noneMalformed ls → bytesIn ls ≤ 256 → ∃ t, loadLines s 0 1 ls = .ok t

/-- R119, R120, R276: a run has ended exactly when at most the budget's number of steps led to a terminal state, and has spent
its budget exactly when that many steps led to a Running state. -/
def Obligations.RunsEndOrSpendTheirBudget : Prop :=
  ∀ (budget : Nat) (s t : State),
    (run budget s = .ended t ↔ t.status ≠ .running ∧ ∃ n, n ≤ budget ∧ StepsTo n s t) ∧
    (run budget s = .budgetExhausted t ↔ t.status = .running ∧ StepsTo budget s t)

/-- R121, R212: a JMP to its own address never ends, whatever the budget (log 10), and changes nothing. -/
def Obligations.JumpToItselfNeverEnds : Prop :=
  ∀ (s : State) (a : Byte) (i : RegIdx), s.status = .running → Fetches s (.jmp a) → a.toNat = i.val →
    (s.x i).toNat = s.pc → RunsForever s ∧ ∀ t, Reaches s t → t = s

/-- R91, R92: a text that writes a sequence of instructions in any of the ways R91 gives, one statement a line or separated by
`;`, comments and the shorthand of R92 included, assembles to their bytes in order; so does the plain statement of one
well-formed instruction. What R91 leaves open about the spellings is the model's choice (log 11). -/
def Obligations.AssemblerReadsEveryStatement : Prop :=
  (∀ (is : List Instr) (text : List Char), SpellsText is text → assemble text = some (is.flatMap encode)) ∧
  ∀ i : Instr, i.wellFormed = true → SpellsText [i] (statementOf i) ∧ assemble (statementOf i) = some (encode i)

end
end

