-- ==== Sys2Proof/Laws/Decode.lean ====
section
/-! SUPPORT. The opcode map read both ways, and what the decoder answers. -/

namespace Sys2Proof

/-- The map sends each opcode's byte back to the opcode (R86). -/
@[simp] theorem Op.ofCode_code (o : Op) : Op.ofCode o.code = some o := by
  cases o <;> decide

/-- No two opcodes share a byte (R86). -/
theorem Op.code_injective {o o' : Op} (h : o.code = o'.code) : o = o' := by
  have := congrArg Op.ofCode h
  simpa using this

theorem Op.ofCode_eq_some {c : Byte} {o : Op} : Op.ofCode c = some o ↔ c = o.code := by
  constructor
  · intro h
    have := List.find?_some h
    simpa using (eq_of_beq this).symm
  · rintro rfl; exact Op.ofCode_code o

theorem Op.operands_le (o : Op) : o.operands ≤ 2 := by cases o <;> decide

/-- An instruction has as many operand bytes as its opcode's format gives it (R80). -/
theorem Instr.operandBytes_length (i : Instr) : i.operandBytes.length = i.op.operands := by
  cases i <;> rfl

/-- Building from an instruction's own operand bytes gives it back. -/
theorem Op.build_operandBytes (i : Instr) :
    i.op.build (i.operandBytes.getD 0 0#8) (i.operandBytes.getD 1 0#8) = i := by
  cases i <;> rfl

/-- The opcode of what an opcode builds. -/
@[simp] theorem Op.op_build (o : Op) (b1 b2 : Byte) : (o.build b1 b2).op = o := by
  cases o <;> rfl

/-- The operand bytes of what an opcode builds: the first ones given, as many as it has. -/
theorem Op.operandBytes_build (o : Op) (b1 b2 : Byte) : (o.build b1 b2).operandBytes = [b1, b2].take o.operands := by
  cases o <;> rfl

theorem decode_illegal {c : Byte} (h : Op.ofCode c = none) (rest : List Byte) :
    decode (c :: rest) = .error (.illegal c) := by
  simp [decode, h]

theorem decode_zero {o : Op} (h : o.operands = 0) (rest : List Byte) :
    decode (o.code :: rest) = .ok (o.build 0#8 0#8, rest) := by
  simp [decode, h]

theorem decode_one {o : Op} (h : o.operands = 1) (b1 : Byte) (rest : List Byte) :
    decode (o.code :: b1 :: rest) = .ok (o.build b1 0#8, rest) := by
  simp [decode, h]

theorem decode_two {o : Op} (h : o.operands = 2) (b1 b2 : Byte) (rest : List Byte) :
    decode (o.code :: b1 :: b2 :: rest) = .ok (o.build b1 b2, rest) := by
  simp [decode, h]

/-- What a successful decode has read. -/
theorem decode_ok_cases {bs rest : List Byte} {i : Instr} (h : decode bs = .ok (i, rest)) :
    ∃ o : Op, (o.operands = 0 ∧ bs = o.code :: rest ∧ i = o.build 0#8 0#8) ∨
      (o.operands = 1 ∧ ∃ b1, bs = o.code :: b1 :: rest ∧ i = o.build b1 0#8) ∨
      (o.operands = 2 ∧ ∃ b1 b2, bs = o.code :: b1 :: b2 :: rest ∧ i = o.build b1 b2) := by
  cases bs with
  | nil => simp [decode] at h
  | cons c bs =>
    simp only [decode] at h
    split at h
    · cases h
    · next o ho =>
      obtain rfl := Op.ofCode_eq_some.mp ho
      refine ⟨o, ?_⟩
      split at h
      · next h0 => simp_all
      · next h0 => simp_all
      · next b1 b2 _ h0 =>
        injection h with h
        obtain ⟨rfl, rfl⟩ := Prod.mk.inj h
        exact .inr (.inr ⟨h0, b1, b2, rfl, rfl⟩)
      · cases h

end Sys2Proof
end

