-- ==== Sys2Proof/Laws/Memory.lean ====
section
/-! SUPPORT. The laws of the memory array: read after write, writes elsewhere, and the canonical form kept. -/

namespace Sys2Proof.Machine

theorem Memory.get_filter_ne (m : Memory) (k j : Nat) :
    Memory.get (m.filter fun c => c.1 != k) j = if j = k then Config.unlisted else Memory.get m j := by
  induction m with
  | nil => simp [Memory.get]
  | cons c m ih =>
    obtain ⟨a, b⟩ := c
    by_cases ha : a = k
    · subst ha
      by_cases hj : j = a
      · subst hj; simpa using ih
      · simp [ih, hj, Memory.get, Ne.symm hj]
    · by_cases hj : a = j
      · subst hj; simp [Memory.get, ha]
      · simp [Memory.get, ha, hj, ih]

theorem Memory.get_insert (m : Memory) (k j : Nat) (v : Byte) :
    Memory.get (Memory.insert m k v) j = if j = k then v else Memory.get m j := by
  induction m with
  | nil => simp [Memory.insert, Memory.get, eq_comm]
  | cons c m ih =>
    obtain ⟨a, b⟩ := c
    simp only [Memory.insert]
    by_cases h1 : k < a
    · simp [h1, Memory.get, eq_comm]
    · by_cases h2 : k = a
      · subst h2
        by_cases hj : j = k
        · simp [Memory.get, hj]
        · simp [Memory.get, hj, Ne.symm hj]
      · by_cases hj : a = j
        · subst hj; simp [h1, h2, Memory.get, Ne.symm h2]
        · simp [h1, h2, Memory.get, hj, ih]

/-- Read after write: the byte written at its own address, every other cell as before. -/
theorem Memory.get_set (m : Memory) (k j : Nat) (v : Byte) :
    Memory.get (Memory.set m k v) j = if j = k then v else Memory.get m j := by
  unfold Memory.set
  split
  · next h => simp [Memory.get_filter_ne, h]
  · exact Memory.get_insert m k j v

theorem Memory.all_lt_insert {m : Memory} {a k : Nat} {v : Byte} (hm : (m.all fun c => decide (a < c.1)) = true) (hk : a < k) :
    ((Memory.insert m k v).all fun c => decide (a < c.1)) = true := by
  induction m with
  | nil => simpa [Memory.insert] using hk
  | cons c m ih =>
    obtain ⟨x, y⟩ := c
    simp only [List.all_cons, Bool.and_eq_true, decide_eq_true_eq] at hm
    simp only [Memory.insert]
    split
    · simp only [List.all_cons, Bool.and_eq_true, decide_eq_true_eq]; exact ⟨hk, hm⟩
    · split
      · simp only [List.all_cons, Bool.and_eq_true, decide_eq_true_eq]; exact ⟨hk, hm.2⟩
      · simp only [List.all_cons, Bool.and_eq_true, decide_eq_true_eq]; exact ⟨hm.1, ih hm.2⟩

theorem Memory.wf_cons {a : Nat} {b : Byte} {m : Memory} :
    Memory.wf ((a, b) :: m) = true ↔ b ≠ Config.unlisted ∧ (∀ c ∈ m, a < c.1) ∧ Memory.wf m = true := by
  simp [Memory.wf, and_assoc]

theorem Memory.wf_insert {m : Memory} (hm : m.wf = true) (k : Nat) {v : Byte} (hv : v ≠ Config.unlisted) :
    (Memory.insert m k v).wf = true := by
  induction m with
  | nil => simp [Memory.insert, Memory.wf, hv]
  | cons c m ih =>
    obtain ⟨a, b⟩ := c
    obtain ⟨hb, hlt, hw⟩ := Memory.wf_cons.mp hm
    simp only [Memory.insert]
    split
    · next h =>
      refine Memory.wf_cons.mpr ⟨hv, ?_, hm⟩
      intro c hc
      rcases List.mem_cons.mp hc with rfl | hc
      · exact h
      · exact Nat.lt_trans h (hlt c hc)
    · split
      · next h1 h => subst h; exact Memory.wf_cons.mpr ⟨hv, hlt, hw⟩
      · next h1 h2 =>
        have hall := Memory.all_lt_insert (v := v) (List.all_eq_true.mpr fun c hc => decide_eq_true (hlt c hc))
          (show a < k by omega)
        exact Memory.wf_cons.mpr ⟨hb, fun c hc => of_decide_eq_true (List.all_eq_true.mp hall c hc), ih hw⟩

theorem Memory.wf_filter {m : Memory} (hm : m.wf = true) (q : Host.Cell → Bool) : Memory.wf (m.filter q) = true := by
  induction m with
  | nil => rfl
  | cons c m ih =>
    obtain ⟨a, b⟩ := c
    obtain ⟨hb, hlt, hw⟩ := Memory.wf_cons.mp hm
    rw [List.filter_cons]
    split
    · exact Memory.wf_cons.mpr ⟨hb, fun c hc => hlt c (List.mem_filter.mp hc).1, ih hw⟩
    · exact ih hw

/-- Every write keeps the canonical form. -/
theorem Memory.wf_set {m : Memory} (hm : m.wf = true) (k : Nat) (v : Byte) : (Memory.set m k v).wf = true := by
  unfold Memory.set
  split
  · exact Memory.wf_filter hm _
  · next hv => exact Memory.wf_insert hm k hv

theorem Memory.mem_insert {m : Memory} {k : Nat} {v : Byte} {c : Host.Cell} (h : c ∈ Memory.insert m k v) :
    c = (k, v) ∨ c ∈ m := by
  induction m with
  | nil => simpa [Memory.insert] using h
  | cons d m ih =>
    obtain ⟨a, b⟩ := d
    simp only [Memory.insert] at h
    split at h
    · simpa using h
    · split at h
      · rcases List.mem_cons.mp h with h | h
        · exact .inl h
        · exact .inr (List.mem_cons_of_mem _ h)
      · rcases List.mem_cons.mp h with h | h
        · exact .inr (h ▸ List.mem_cons_self)
        · exact (ih h).imp id (List.mem_cons_of_mem _)

/-- A write to a cell that exists lists no address outside memory. -/
theorem Memory.inRange_set {m : Memory} (hm : m.inRange = true) {k : Nat} (hk : k < Config.memSize) (v : Byte) :
    (Memory.set m k v).inRange = true := by
  simp only [Memory.inRange, List.all_eq_true, decide_eq_true_eq] at hm ⊢
  intro c hc
  unfold Memory.set at hc
  split at hc
  · exact hm c (List.mem_filter.mp hc).1
  · rcases Memory.mem_insert hc with rfl | hc
    · exact hk
    · exact hm c hc

theorem State.byteAt_setByte (s : State) (a k : Nat) (v : Byte) :
    (s.setByte a v).byteAt k = if k = a then v else s.byteAt k :=
  Memory.get_set s.mem a k v

@[simp] theorem State.byteAt_setByte_same (s : State) (a : Nat) (v : Byte) : (s.setByte a v).byteAt a = v := by
  simp [State.byteAt_setByte]

theorem State.byteAt_setByte_other (s : State) {a k : Nat} (v : Byte) (h : k ≠ a) :
    (s.setByte a v).byteAt k = s.byteAt k := by
  simp [State.byteAt_setByte, h]

end Sys2Proof.Machine
end

