-- ==== Sys2Proof/Laws/State.lean ====
section
/-! SUPPORT. One lemma per field per update of State, and the read-after-write laws of the registers. -/

namespace Sys2Proof.Machine

variable (s : State)

@[simp] theorem State.setX_regs (i : RegIdx) (v : Byte) : (s.setX i v).regs = s.regs.set i v := rfl
@[simp] theorem State.setX_pc (i : RegIdx) (v : Byte) : (s.setX i v).pc = s.pc := rfl
@[simp] theorem State.setX_flag (i : RegIdx) (v : Byte) : (s.setX i v).flag = s.flag := rfl
@[simp] theorem State.setX_halted (i : RegIdx) (v : Byte) : (s.setX i v).halted = s.halted := rfl
@[simp] theorem State.setX_fault (i : RegIdx) (v : Byte) : (s.setX i v).fault = s.fault := rfl
@[simp] theorem State.setX_mem (i : RegIdx) (v : Byte) : (s.setX i v).mem = s.mem := rfl
@[simp] theorem State.setX_out (i : RegIdx) (v : Byte) : (s.setX i v).out = s.out := rfl

@[simp] theorem State.setSp_regs (v : Byte) : (s.setSp v).regs = s.regs.set Config.spIndex v := rfl
@[simp] theorem State.setSp_pc (v : Byte) : (s.setSp v).pc = s.pc := rfl
@[simp] theorem State.setSp_flag (v : Byte) : (s.setSp v).flag = s.flag := rfl
@[simp] theorem State.setSp_halted (v : Byte) : (s.setSp v).halted = s.halted := rfl
@[simp] theorem State.setSp_fault (v : Byte) : (s.setSp v).fault = s.fault := rfl
@[simp] theorem State.setSp_mem (v : Byte) : (s.setSp v).mem = s.mem := rfl
@[simp] theorem State.setSp_out (v : Byte) : (s.setSp v).out = s.out := rfl

@[simp] theorem State.setPc_regs (p : Nat) : (s.setPc p).regs = s.regs := rfl
@[simp] theorem State.setPc_pc (p : Nat) : (s.setPc p).pc = p := rfl
@[simp] theorem State.setPc_flag (p : Nat) : (s.setPc p).flag = s.flag := rfl
@[simp] theorem State.setPc_halted (p : Nat) : (s.setPc p).halted = s.halted := rfl
@[simp] theorem State.setPc_fault (p : Nat) : (s.setPc p).fault = s.fault := rfl
@[simp] theorem State.setPc_mem (p : Nat) : (s.setPc p).mem = s.mem := rfl
@[simp] theorem State.setPc_out (p : Nat) : (s.setPc p).out = s.out := rfl

@[simp] theorem State.setFlag_regs (b : Bool) : (s.setFlag b).regs = s.regs := rfl
@[simp] theorem State.setFlag_pc (b : Bool) : (s.setFlag b).pc = s.pc := rfl
@[simp] theorem State.setFlag_flag (b : Bool) : (s.setFlag b).flag = b := rfl
@[simp] theorem State.setFlag_halted (b : Bool) : (s.setFlag b).halted = s.halted := rfl
@[simp] theorem State.setFlag_fault (b : Bool) : (s.setFlag b).fault = s.fault := rfl
@[simp] theorem State.setFlag_mem (b : Bool) : (s.setFlag b).mem = s.mem := rfl
@[simp] theorem State.setFlag_out (b : Bool) : (s.setFlag b).out = s.out := rfl

@[simp] theorem State.setHalted_regs : (s.setHalted).regs = s.regs := rfl
@[simp] theorem State.setHalted_pc : (s.setHalted).pc = s.pc := rfl
@[simp] theorem State.setHalted_flag : (s.setHalted).flag = s.flag := rfl
@[simp] theorem State.setHalted_halted : (s.setHalted).halted = true := rfl
@[simp] theorem State.setHalted_fault : (s.setHalted).fault = s.fault := rfl
@[simp] theorem State.setHalted_mem : (s.setHalted).mem = s.mem := rfl
@[simp] theorem State.setHalted_out : (s.setHalted).out = s.out := rfl

@[simp] theorem State.emit_regs (l : String) : (s.emit l).regs = s.regs := rfl
@[simp] theorem State.emit_pc (l : String) : (s.emit l).pc = s.pc := rfl
@[simp] theorem State.emit_flag (l : String) : (s.emit l).flag = s.flag := rfl
@[simp] theorem State.emit_halted (l : String) : (s.emit l).halted = s.halted := rfl
@[simp] theorem State.emit_fault (l : String) : (s.emit l).fault = s.fault := rfl
@[simp] theorem State.emit_mem (l : String) : (s.emit l).mem = s.mem := rfl
@[simp] theorem State.emit_out (l : String) : (s.emit l).out = s.out ++ [l] := rfl

@[simp] theorem State.setByte_regs (a : Nat) (v : Byte) : (s.setByte a v).regs = s.regs := rfl
@[simp] theorem State.setByte_pc (a : Nat) (v : Byte) : (s.setByte a v).pc = s.pc := rfl
@[simp] theorem State.setByte_flag (a : Nat) (v : Byte) : (s.setByte a v).flag = s.flag := rfl
@[simp] theorem State.setByte_halted (a : Nat) (v : Byte) : (s.setByte a v).halted = s.halted := rfl
@[simp] theorem State.setByte_fault (a : Nat) (v : Byte) : (s.setByte a v).fault = s.fault := rfl
@[simp] theorem State.setByte_mem (a : Nat) (v : Byte) : (s.setByte a v).mem = s.mem.set a v := rfl
@[simp] theorem State.setByte_out (a : Nat) (v : Byte) : (s.setByte a v).out = s.out := rfl

@[simp] theorem State.advance_regs (op : Op) : (s.advance op).regs = s.regs := rfl
@[simp] theorem State.advance_pc (op : Op) : (s.advance op).pc = s.pc + op.length := rfl
@[simp] theorem State.advance_flag (op : Op) : (s.advance op).flag = s.flag := rfl
@[simp] theorem State.advance_halted (op : Op) : (s.advance op).halted = s.halted := rfl
@[simp] theorem State.advance_fault (op : Op) : (s.advance op).fault = s.fault := rfl
@[simp] theorem State.advance_mem (op : Op) : (s.advance op).mem = s.mem := rfl
@[simp] theorem State.advance_out (op : Op) : (s.advance op).out = s.out := rfl

@[simp] theorem State.raise_regs (op : Option Byte) (r : Raise) : (s.raise op r).regs = s.regs := rfl
@[simp] theorem State.raise_pc (op : Option Byte) (r : Raise) : (s.raise op r).pc = s.pc := rfl
@[simp] theorem State.raise_flag (op : Option Byte) (r : Raise) : (s.raise op r).flag = s.flag := rfl
@[simp] theorem State.raise_halted (op : Option Byte) (r : Raise) : (s.raise op r).halted = s.halted := rfl
@[simp] theorem State.raise_fault (op : Option Byte) (r : Raise) : (s.raise op r).fault = some ⟨r.kind, s.pc, op, r.detail⟩ := rfl
@[simp] theorem State.raise_mem (op : Option Byte) (r : Raise) : (s.raise op r).mem = s.mem := rfl
@[simp] theorem State.raise_out (op : Option Byte) (r : Raise) : (s.raise op r).out = s.out := rfl

/-- Two states are equal when their fields are. -/
theorem State.eq_of_fields {s t : State} (hr : s.regs = t.regs) (hp : s.pc = t.pc) (hf : s.flag = t.flag)
    (hh : s.halted = t.halted) (hft : s.fault = t.fault) (hm : s.mem = t.mem) (ho : s.out = t.out) : s = t := by
  cases s; cases t; simp_all

@[simp] theorem State.byteAt_setX (i : RegIdx) (v : Byte) (k : Nat) : (s.setX i v).byteAt k = s.byteAt k := rfl
@[simp] theorem State.byteAt_setSp (v : Byte) (k : Nat) : (s.setSp v).byteAt k = s.byteAt k := rfl
@[simp] theorem State.x_setPc (p : Nat) (j : RegIdx) : (s.setPc p).x j = s.x j := rfl
@[simp] theorem State.sp_setPc (p : Nat) : (s.setPc p).sp = s.sp := rfl
@[simp] theorem State.byteAt_setPc (p : Nat) (k : Nat) : (s.setPc p).byteAt k = s.byteAt k := rfl
@[simp] theorem State.x_setFlag (b : Bool) (j : RegIdx) : (s.setFlag b).x j = s.x j := rfl
@[simp] theorem State.sp_setFlag (b : Bool) : (s.setFlag b).sp = s.sp := rfl
@[simp] theorem State.byteAt_setFlag (b : Bool) (k : Nat) : (s.setFlag b).byteAt k = s.byteAt k := rfl
@[simp] theorem State.x_setHalted  (j : RegIdx) : (s.setHalted).x j = s.x j := rfl
@[simp] theorem State.sp_setHalted  : (s.setHalted).sp = s.sp := rfl
@[simp] theorem State.byteAt_setHalted  (k : Nat) : (s.setHalted).byteAt k = s.byteAt k := rfl
@[simp] theorem State.x_emit (l : String) (j : RegIdx) : (s.emit l).x j = s.x j := rfl
@[simp] theorem State.sp_emit (l : String) : (s.emit l).sp = s.sp := rfl
@[simp] theorem State.byteAt_emit (l : String) (k : Nat) : (s.emit l).byteAt k = s.byteAt k := rfl
@[simp] theorem State.x_setByte (a : Nat) (v : Byte) (j : RegIdx) : (s.setByte a v).x j = s.x j := rfl
@[simp] theorem State.sp_setByte (a : Nat) (v : Byte) : (s.setByte a v).sp = s.sp := rfl
@[simp] theorem State.x_advance (op : Op) (j : RegIdx) : (s.advance op).x j = s.x j := rfl
@[simp] theorem State.sp_advance (op : Op) : (s.advance op).sp = s.sp := rfl
@[simp] theorem State.byteAt_advance (op : Op) (k : Nat) : (s.advance op).byteAt k = s.byteAt k := rfl
@[simp] theorem State.x_raise (op : Option Byte) (r : Raise) (j : RegIdx) : (s.raise op r).x j = s.x j := rfl
@[simp] theorem State.sp_raise (op : Option Byte) (r : Raise) : (s.raise op r).sp = s.sp := rfl
@[simp] theorem State.byteAt_raise (op : Option Byte) (r : Raise) (k : Nat) : (s.raise op r).byteAt k = s.byteAt k := rfl

/-- Read after write of one register. -/
theorem State.x_setX (i j : RegIdx) (v : Byte) : (s.setX i v).x j = if i = j then v else s.x j := by
  simp only [State.x, State.setX, Fin.getElem_fin, Vector.getElem_set, Fin.ext_iff]

@[simp] theorem State.x_setX_same (i : RegIdx) (v : Byte) : (s.setX i v).x i = v := by simp [State.x_setX]

theorem State.x_setX_other {i j : RegIdx} (v : Byte) (h : j ≠ i) : (s.setX i v).x j = s.x j := by
  simp [State.x_setX, h.symm]

theorem State.x_setSp (j : RegIdx) (v : Byte) : (s.setSp v).x j = if Config.spIndex = j then v else s.x j :=
  s.x_setX Config.spIndex j v

@[simp] theorem State.sp_setSp (v : Byte) : (s.setSp v).sp = v := s.x_setX_same Config.spIndex v

theorem State.sp_eq : s.sp = s.x Config.spIndex := rfl

end Sys2Proof.Machine
end

