-- ==== Sys2Proof/Laws/Ops.lean ====
section
/-! SUPPORT. What each shared operation answers, said once: the memory interface, push and pop, operand validation, the
ALU and the commit of a step. -/

namespace Sys2Proof.Machine

theorem memSize_eq : Config.memSize = 256 := rfl

theorem outside_iff {a : Int} : outside a = true ↔ a < 0 ∨ 256 ≤ a := by
  simp [outside, memSize_eq]

theorem outside_eq_false {a : Int} : outside a = false ↔ 0 ≤ a ∧ a < 256 := by
  simp [outside, memSize_eq]

/-- MemRead inside memory (R51). -/
theorem memRead_inside (s : State) {k : Nat} (h : k < 256) : memRead s k = .ok (s.byteAt k) := by
  have : outside (k : Int) = false := outside_eq_false.mpr (by omega)
  simp [memRead, this]

/-- MemRead outside memory (R51). -/
theorem memRead_outside (s : State) {a : Int} (h : outside a = true) : memRead s a = .error ⟨.outOfBounds, a⟩ := by
  simp [memRead, h]

theorem memRead_past_end (s : State) {k : Nat} (h : 256 ≤ k) : memRead s k = .error ⟨.outOfBounds, k⟩ :=
  memRead_outside s (outside_iff.mpr (by omega))

/-- MemRead reports only OutOfBounds, and only of an address outside memory. -/
theorem memRead_error {s : State} {a : Int} {e : Raise} (h : memRead s a = .error e) :
    e = ⟨.outOfBounds, a⟩ ∧ outside a = true := by
  unfold memRead at h
  split at h
  · next ho => exact ⟨by injection h with h; exact h.symm, ho⟩
  · cases h

/-- MemWrite inside memory (R52). -/
theorem memWrite_inside (s : State) {k : Nat} (h : k < 256) (v : Byte) : memWrite s k v = .ok (s.setByte k v) := by
  have : outside (k : Int) = false := outside_eq_false.mpr (by omega)
  simp [memWrite, this]

/-- MemWrite outside memory (R52). -/
theorem memWrite_outside (s : State) {a : Int} (h : outside a = true) (v : Byte) :
    memWrite s a v = .error ⟨.outOfBounds, a⟩ := by
  simp [memWrite, h]

theorem pushAddr_eq (s : State) (h : 0 < s.sp.toNat) : pushAddr s = ((s.sp.toNat - 1 : Nat) : Int) := by
  unfold pushAddr; omega

/-- A push from `SP = 0` (R191). -/
theorem push_at_zero (s : State) (v : Byte) (h : s.sp.toNat = 0) : push s v = .error ⟨.outOfBounds, -1⟩ := by
  have ha : pushAddr s = -1 := by unfold pushAddr; omega
  have ho : outside (-1) = true := by decide
  simp [push, ha, ho]

/-- A push from any other stack pointer (R191). -/
theorem push_stores (s : State) (v : Byte) (h : 0 < s.sp.toNat) :
    push s v = .ok ((s.setSp (BitVec.ofNat 8 (s.sp.toNat - 1))).setByte (s.sp.toNat - 1) v) := by
  have hlt := s.sp.isLt
  have ho : outside ((s.sp.toNat - 1 : Nat) : Int) = false := outside_eq_false.mpr (by omega)
  simp [push, pushAddr_eq s h, ho, memWrite_inside _ (show s.sp.toNat - 1 < 256 by omega)]

/-- A pop of the empty stack (R192, R196). -/
theorem pop_empty (s : State) (h : s.sp = Config.spEmpty) : pop s = .error ⟨.stackUnderflow, 0xF4⟩ := by
  simp [pop, h, Config.spEmpty]

/-- A pop whose new stack pointer does not fit a byte (R192). -/
theorem pop_at_top (s : State) (h : s.sp.toNat = 255) : pop s = .error ⟨.outOfBounds, 256⟩ := by
  have hne : s.sp ≠ Config.spEmpty := by intro e; rw [e] at h; revert h; decide
  simp [pop, hne, h, memSize_eq]

/-- Every other pop (R192). -/
theorem pop_reads (s : State) (h : s.sp ≠ Config.spEmpty) (ht : s.sp.toNat < 255) :
    pop s = .ok (s.byteAt s.sp.toNat, BitVec.ofNat 8 (s.sp.toNat + 1)) := by
  have h1 : ¬ s.sp.toNat ≥ Config.memSize := by rw [memSize_eq]; omega
  have h2 : ¬ s.sp.toNat + 1 > 255 := by omega
  simp [pop, h, h1, h2, memRead_inside s (show s.sp.toNat < 256 by omega)]

/-- What a pop answers (R192): nothing else than these three. -/
theorem pop_cases (s : State) :
    (s.sp = Config.spEmpty ∧ pop s = .error ⟨.stackUnderflow, 0xF4⟩) ∨
    (s.sp.toNat = 255 ∧ pop s = .error ⟨.outOfBounds, 256⟩) ∨
    (s.sp ≠ Config.spEmpty ∧ s.sp.toNat < 255 ∧
      pop s = .ok (s.byteAt s.sp.toNat, BitVec.ofNat 8 (s.sp.toNat + 1))) := by
  by_cases h : s.sp = Config.spEmpty
  · exact .inl ⟨h, pop_empty s h⟩
  · by_cases ht : s.sp.toNat = 255
    · exact .inr (.inl ⟨ht, pop_at_top s ht⟩)
    · have := s.sp.isLt
      exact .inr (.inr ⟨h, by omega, pop_reads s h (by omega)⟩)

/-- A register byte below 8 names its register (R83). -/
theorem regOperand_of_eq {a : Byte} {i : RegIdx} (h : a.toNat = i.val) : regOperand a = .ok i := by
  simp [regOperand, h]

/-- A register byte of 8 or more names none (R83). -/
theorem regOperand_invalid {a : Byte} (h : 8 ≤ a.toNat) : regOperand a = .error ⟨.invalidRegister, a.toNat⟩ := by
  simp [regOperand, show ¬ a.toNat < 8 by omega]

theorem regOperand_cases (a : Byte) :
    (∃ i : RegIdx, a.toNat = i.val ∧ regOperand a = .ok i) ∨
    (8 ≤ a.toNat ∧ regOperand a = .error ⟨.invalidRegister, a.toNat⟩) := by
  by_cases h : a.toNat < 8
  · exact .inl ⟨⟨a.toNat, h⟩, rfl, regOperand_of_eq rfl⟩
  · exact .inr ⟨by omega, regOperand_invalid (by omega)⟩

theorem withReg_of_eq {a : Byte} {i : RegIdx} (h : a.toNat = i.val) (f : RegIdx → Except Raise State) :
    withReg a f = f i := by
  simp [withReg, regOperand_of_eq h]

theorem withReg_invalid {a : Byte} (h : 8 ≤ a.toNat) (f : RegIdx → Except Raise State) :
    withReg a f = .error ⟨.invalidRegister, a.toNat⟩ := by
  simp [withReg, regOperand_invalid h]

theorem withRegs_of_eq {a b : Byte} {i j : RegIdx} (ha : a.toNat = i.val) (hb : b.toNat = j.val)
    (f : RegIdx → RegIdx → Except Raise State) : withRegs a b f = f i j := by
  simp [withRegs, withReg_of_eq ha, withReg_of_eq hb]

theorem withRegs_first_invalid {a b : Byte} (ha : 8 ≤ a.toNat) (f : RegIdx → RegIdx → Except Raise State) :
    withRegs a b f = .error ⟨.invalidRegister, a.toNat⟩ :=
  withReg_invalid ha _

theorem withRegs_second_invalid {a b : Byte} {i : RegIdx} (ha : a.toNat = i.val) (hb : 8 ≤ b.toNat)
    (f : RegIdx → RegIdx → Except Raise State) : withRegs a b f = .error ⟨.invalidRegister, b.toNat⟩ := by
  simp [withRegs, withReg_of_eq ha, withReg_invalid hb]

@[simp] theorem commit_ok (op : Op) (s t : State) : commit op s (.ok t) = .next t := rfl

@[simp] theorem commit_error (op : Op) (s : State) (e : Raise) :
    commit op s (.error e) = .next (s.raise (some op.code) e) := rfl

/-- Whatever a meaning computes, its commit answers a next state (R118). -/
theorem commit_next (op : Op) (s : State) (r : Except Raise State) : ∃ t, commit op s r = .next t := by
  cases r with
  | ok t => exact ⟨t, rfl⟩
  | error e => exact ⟨_, rfl⟩

theorem wrap8_toNat (r : Int) : (wrap8 r).toNat = (r % 256).toNat := by
  simp [wrap8, BitVec.toNat_ofInt]

theorem aluTwo_of_eq (op : Op) (f : AluOp) {a b : Byte} {i j : RegIdx} (s : State) (ha : a.toNat = i.val)
    (hb : b.toNat = j.val) {t : State} (ht : aluApply f i j s = .ok t) :
    aluTwo op f a b s = .next (t.advance op) := by
  simp [aluTwo, withRegs_of_eq ha hb, ht]

theorem aluTwo_raises (op : Op) (f : AluOp) {a b : Byte} {i j : RegIdx} (s : State) (ha : a.toNat = i.val)
    (hb : b.toNat = j.val) {e : Raise} (ht : aluApply f i j s = .error e) :
    aluTwo op f a b s = .next (s.raise (some op.code) e) := by
  simp [aluTwo, withRegs_of_eq ha hb, ht]

theorem aluTwo_first_invalid (op : Op) (f : AluOp) {a b : Byte} (s : State) (ha : 8 ≤ a.toNat) :
    aluTwo op f a b s = .next (s.raise (some op.code) ⟨.invalidRegister, a.toNat⟩) := by
  simp [aluTwo, withRegs_first_invalid ha]

theorem aluTwo_second_invalid (op : Op) (f : AluOp) {a b : Byte} {i : RegIdx} (s : State) (ha : a.toNat = i.val)
    (hb : 8 ≤ b.toNat) : aluTwo op f a b s = .next (s.raise (some op.code) ⟨.invalidRegister, b.toNat⟩) := by
  simp [aluTwo, withRegs_second_invalid ha hb]

theorem aluOne_of_eq (op : Op) (f : AluOp) {a : Byte} {i : RegIdx} (s : State) (ha : a.toNat = i.val)
    {t : State} (ht : aluApply f i i s = .ok t) : aluOne op f a s = .next (t.advance op) := by
  simp [aluOne, withReg_of_eq ha, ht]

theorem aluOne_invalid (op : Op) (f : AluOp) {a : Byte} (s : State) (ha : 8 ≤ a.toNat) :
    aluOne op f a s = .next (s.raise (some op.code) ⟨.invalidRegister, a.toNat⟩) := by
  simp [aluOne, withReg_invalid ha]

/-- What the ALU answers (R140): a new value of `x[a]`, or of `flag` for CMP, or DivisionByZero of the divisor's number. -/
theorem aluApply_cases (f : AluOp) (a b : RegIdx) (s : State) :
    (f ≠ .cmp ∧ ∃ v, aluApply f a b s = .ok (s.setX a v)) ∨
    (f = .cmp ∧ ∃ c, aluApply f a b s = .ok (s.setFlag c)) ∨
    (f = .div ∧ s.x b = 0#8 ∧ aluApply f a b s = .error ⟨.divisionByZero, b.val⟩) := by
  cases f with
  | cmp => exact .inr (.inl ⟨rfl, _, rfl⟩)
  | div =>
    by_cases h : s.x b = 0#8
    · exact .inr (.inr ⟨rfl, h, by simp [aluApply, h]⟩)
    · exact .inl ⟨by decide, _, by simp only [aluApply, h, if_false]; rfl⟩
  | add | sub | mul | and | or | xor | shl | shr | not => exact .inl ⟨by decide, _, rfl⟩

end Sys2Proof.Machine
end

