-- ==== Sys2Proof/Laws/Exec.lean ====
section
/-! SUPPORT. Everything executing a decoded instruction can do, said once: `exec_cases`. -/

namespace Sys2Proof.Machine

/-! The eleven ALU instructions as the shared operation each one is. -/

theorem exec_add (a b : Byte) (s : State) : exec (.add a b) s = aluTwo .add .add a b s := rfl
theorem exec_sub (a b : Byte) (s : State) : exec (.sub a b) s = aluTwo .sub .sub a b s := rfl
theorem exec_mul (a b : Byte) (s : State) : exec (.mul a b) s = aluTwo .mul .mul a b s := rfl
theorem exec_div (a b : Byte) (s : State) : exec (.div a b) s = aluTwo .div .div a b s := rfl
theorem exec_cmp (a b : Byte) (s : State) : exec (.cmp a b) s = aluTwo .cmp .cmp a b s := rfl
theorem exec_and (a b : Byte) (s : State) : exec (.and a b) s = aluTwo .and .and a b s := rfl
theorem exec_or (a b : Byte) (s : State) : exec (.or a b) s = aluTwo .or .or a b s := rfl
theorem exec_xor (a b : Byte) (s : State) : exec (.xor a b) s = aluTwo .xor .xor a b s := rfl
theorem exec_shl (a b : Byte) (s : State) : exec (.shl a b) s = aluTwo .shl .shl a b s := rfl
theorem exec_shr (a b : Byte) (s : State) : exec (.shr a b) s = aluTwo .shr .shr a b s := rfl
theorem exec_not (a u : Byte) (s : State) : exec (.not a u) s = aluOne .not .not a s := rfl

/-- What an instruction raises in its validation and execute phases, and when (R244, R245): the first register field that is 8
or more, or, with its register fields valid, what its execute phase finds. -/
inductive Raises (s : State) : Instr → Raise → Prop where
  | register {n : Instr} {before after : List Byte} {v : Byte} : n.regFields = before ++ v :: after →
      (∀ w ∈ before, w.toNat < 8) → 8 ≤ v.toNat → Raises s n ⟨.invalidRegister, v.toNat⟩
  | divisor {a b : Byte} {j : RegIdx} : a.toNat < 8 → b.toNat = j.val → s.x j = 0#8 →
      Raises s (.div a b) ⟨.divisionByZero, j.val⟩
  | popEmpty {a : Byte} : a.toNat < 8 → s.sp = Config.spEmpty → Raises s (.pop a) ⟨.stackUnderflow, 0xF4⟩
  | popTop {a : Byte} : a.toNat < 8 → s.sp.toNat = 255 → Raises s (.pop a) ⟨.outOfBounds, 256⟩
  | retEmpty : s.sp = Config.spEmpty → Raises s .ret ⟨.stackUnderflow, 0xF4⟩
  | retTop : s.sp.toNat = 255 → Raises s .ret ⟨.outOfBounds, 256⟩
  | pushZero {a : Byte} : a.toNat < 8 → s.sp.toNat = 0 → Raises s (.push a) ⟨.outOfBounds, -1⟩
  | callReturn {a : Byte} : a.toNat < 8 → 255 < s.pc + 2 → Raises s (.call a) ⟨.outOfBounds, (s.pc + 2 : Nat)⟩
  | callZero {a : Byte} : a.toNat < 8 → s.pc + 2 ≤ 255 → s.sp.toNat = 0 → Raises s (.call a) ⟨.outOfBounds, -1⟩

/-- The writes of an instruction that raises nothing. -/
inductive Effect (s : State) : Instr → State → Prop where
  | hlt : Effect s .hlt (s.setHalted.advance .hlt)
  | ret : s.sp ≠ Config.spEmpty → s.sp.toNat < 255 →
      Effect s .ret ((s.setSp (BitVec.ofNat 8 (s.sp.toNat + 1))).setPc (s.byteAt s.sp.toNat).toNat)
  | push {a : Byte} {i : RegIdx} : a.toNat = i.val → 0 < s.sp.toNat →
      Effect s (.push a)
        (((s.setSp (BitVec.ofNat 8 (s.sp.toNat - 1))).setByte (s.sp.toNat - 1) (s.x i)).advance .push)
  | pop {a : Byte} {i : RegIdx} : a.toNat = i.val → s.sp ≠ Config.spEmpty → s.sp.toNat < 255 →
      Effect s (.pop a)
        (((s.setSp (BitVec.ofNat 8 (s.sp.toNat + 1))).setX i (s.byteAt s.sp.toNat)).advance .pop)
  | prn {a : Byte} {i : RegIdx} : a.toNat = i.val → Effect s (.prn a) ((s.emit (prnLine (s.x i))).advance .prn)
  | call {a : Byte} {i : RegIdx} : a.toNat = i.val → s.pc + 2 ≤ 255 → 0 < s.sp.toNat →
      Effect s (.call a)
        (((s.setSp (BitVec.ofNat 8 (s.sp.toNat - 1))).setByte (s.sp.toNat - 1) (BitVec.ofNat 8 (s.pc + 2))).setPc
          (s.x i).toNat)
  | jmp {a : Byte} {i : RegIdx} : a.toNat = i.val → Effect s (.jmp a) (s.setPc (s.x i).toNat)
  | jeq {a : Byte} {i : RegIdx} : a.toNat = i.val →
      Effect s (.jeq a) (if s.flag then s.setPc (s.x i).toNat else s.advance .jeq)
  | jne {a : Byte} {i : RegIdx} : a.toNat = i.val →
      Effect s (.jne a) (if s.flag then s.advance .jne else s.setPc (s.x i).toNat)
  | cmp {a b : Byte} {i j : RegIdx} : a.toNat = i.val → b.toNat = j.val →
      Effect s (.cmp a b) ((s.setFlag (compareFlag (s.x i) (s.x j))).advance .cmp)
  | register {n : Instr} {i : RegIdx} {v : Byte} : n.op.operands = 2 → n.op ≠ .cmp →
      n.regFields.head?.map BitVec.toNat = some i.val → Effect s n ((s.setX i v).advance n.op)

/-- The answer `r` of a meaning, before its commit, is one of the raises or of the effects above. -/
def Accounts (s : State) (i : Instr) (o : Host.Outcome State Fault Refusal) : Prop :=
  (∃ e, Raises s i e ∧ o = .next (s.raise (some i.op.code) e)) ∨ (∃ t, Effect s i t ∧ o = .next t)

/-- The validation of one register field: it raises, or the rest of the instruction accounts for the answer. -/
theorem withReg_accounts {s : State} {n : Instr} {a : Byte} {f : RegIdx → Except Raise State} (before after : List Byte)
    (hf : n.regFields = before ++ a :: after) (hb : ∀ w ∈ before, w.toNat < 8)
    (h : ∀ i : RegIdx, a.toNat = i.val → Accounts s n (commit n.op s (f i))) :
    Accounts s n (commit n.op s (withReg a f)) := by
  rcases regOperand_cases a with ⟨i, hi, -⟩ | ⟨h8, -⟩
  · rw [withReg_of_eq hi]; exact h i hi
  · rw [withReg_invalid h8]; exact .inl ⟨_, .register hf hb h8, rfl⟩

theorem withReg_accounts_first {s : State} {n : Instr} {a : Byte} {f : RegIdx → Except Raise State} {after : List Byte}
    (hf : n.regFields = a :: after) (h : ∀ i : RegIdx, a.toNat = i.val → Accounts s n (commit n.op s (f i))) :
    Accounts s n (commit n.op s (withReg a f)) :=
  withReg_accounts [] after hf nofun h

theorem withRegs_accounts {s : State} {n : Instr} {a b : Byte} {f : RegIdx → RegIdx → Except Raise State}
    (hf : n.regFields = [a, b])
    (h : ∀ i j : RegIdx, a.toNat = i.val → b.toNat = j.val → Accounts s n (commit n.op s (f i j))) :
    Accounts s n (commit n.op s (withRegs a b f)) :=
  withReg_accounts_first hf fun i hi =>
    withReg_accounts [a] [] hf (by intro w hw; obtain rfl := List.mem_singleton.mp hw; have : i.val < 8 := i.isLt; omega)
      fun j hj => h i j hi hj

theorem RegIdx.byte_lt {a : Byte} {i : RegIdx} (h : a.toNat = i.val) : a.toNat < 8 := by
  have : i.val < 8 := i.isLt
  omega

theorem aluTwo_accounts {s : State} {n : Instr} {f : AluOp} {a b : Byte} (hf : n.regFields = [a, b])
    (ho : n.op.operands = 2) (hn : n.op ≠ .cmp) (hc : f ≠ .cmp) (hd : f = .div → n = .div a b) :
    Accounts s n (aluTwo n.op f a b s) := by
  refine withRegs_accounts hf fun i j hi hj => ?_
  rcases aluApply_cases f i j s with ⟨-, v, h⟩ | ⟨h, -⟩ | ⟨h, h0, he⟩
  · rw [h]; exact .inr ⟨_, .register ho hn (by simp [hf, hi]), rfl⟩
  · exact absurd h hc
  · rw [he]; obtain rfl := hd h; exact .inl ⟨_, .divisor (RegIdx.byte_lt hi) hj h0, rfl⟩

/-- Executing an instruction raises one of `Raises`, and then only the fault record is written, or it has its `Effect`
(R9, R118). It never stops. -/
theorem exec_cases (i : Instr) (s : State) : Accounts s i (exec i s) := by
  cases i with
  | hlt => exact .inr ⟨_, .hlt, rfl⟩
  | ret =>
    rcases pop_cases s with ⟨h, hp⟩ | ⟨h, hp⟩ | ⟨h, ht, hp⟩
    · exact .inl ⟨_, .retEmpty h, by simp [exec, execRet, hp, Instr.op]⟩
    · exact .inl ⟨_, .retTop h, by simp [exec, execRet, hp, Instr.op]⟩
    · exact .inr ⟨_, .ret h ht, by simp [exec, execRet, hp]⟩
  | push a =>
    refine withReg_accounts_first (n := .push a) rfl fun i hi => ?_
    by_cases h : s.sp.toNat = 0
    · rw [push_at_zero _ _ h]; exact .inl ⟨_, .pushZero (RegIdx.byte_lt hi) h, rfl⟩
    · have h0 : 0 < s.sp.toNat := by omega
      rw [push_stores _ _ h0]; exact .inr ⟨_, .push hi h0, rfl⟩
  | pop a =>
    refine withReg_accounts_first (n := .pop a) rfl fun i hi => ?_
    rcases pop_cases s with ⟨h, hp⟩ | ⟨h, hp⟩ | ⟨h, ht, hp⟩
    · rw [hp]; exact .inl ⟨_, .popEmpty (RegIdx.byte_lt hi) h, rfl⟩
    · rw [hp]; exact .inl ⟨_, .popTop (RegIdx.byte_lt hi) h, rfl⟩
    · rw [hp]; exact .inr ⟨_, .pop hi h ht, rfl⟩
  | prn a => exact withReg_accounts_first (n := .prn a) rfl fun i hi => .inr ⟨_, .prn hi, rfl⟩
  | call a =>
    refine withReg_accounts_first (n := .call a) rfl fun i hi => ?_
    have hr : nextPc .call s = s.pc + 2 := rfl
    simp only [hr]
    split
    · next h => exact .inl ⟨_, .callReturn (RegIdx.byte_lt hi) h, rfl⟩
    · next h =>
      by_cases h0 : s.sp.toNat = 0
      · rw [push_at_zero _ _ h0]; exact .inl ⟨_, .callZero (RegIdx.byte_lt hi) (by omega) h0, rfl⟩
      · have h1 : 0 < s.sp.toNat := by omega
        rw [push_stores _ _ h1]; exact .inr ⟨_, .call hi (by omega) h1, rfl⟩
  | jmp a => exact withReg_accounts_first (n := .jmp a) rfl fun i hi => .inr ⟨_, .jmp hi, rfl⟩
  | jeq a => exact withReg_accounts_first (n := .jeq a) rfl fun i hi => .inr ⟨_, .jeq hi, rfl⟩
  | jne a => exact withReg_accounts_first (n := .jne a) rfl fun i hi => .inr ⟨_, .jne hi, rfl⟩
  | not a u =>
    exact withReg_accounts_first (n := .not a u) rfl fun i hi =>
      .inr ⟨_, .register rfl (by simp [Instr.op]) (by simp [Instr.regFields, hi]), rfl⟩
  | ldi a v =>
    exact withReg_accounts_first (n := .ldi a v) rfl fun i hi =>
      .inr ⟨_, .register rfl (by simp [Instr.op]) (by simp [Instr.regFields, hi]), rfl⟩
  | cmp a b =>
    exact withRegs_accounts (n := .cmp a b) rfl fun i j hi hj => .inr ⟨_, .cmp hi hj, rfl⟩
  | div a b => exact aluTwo_accounts (n := .div a b) (f := .div) rfl rfl (by simp [Instr.op]) (by decide) fun _ => rfl
  | add a b => exact aluTwo_accounts (n := .add a b) (f := .add) rfl rfl (by simp [Instr.op]) (by decide) nofun
  | sub a b => exact aluTwo_accounts (n := .sub a b) (f := .sub) rfl rfl (by simp [Instr.op]) (by decide) nofun
  | mul a b => exact aluTwo_accounts (n := .mul a b) (f := .mul) rfl rfl (by simp [Instr.op]) (by decide) nofun
  | and a b => exact aluTwo_accounts (n := .and a b) (f := .and) rfl rfl (by simp [Instr.op]) (by decide) nofun
  | or a b => exact aluTwo_accounts (n := .or a b) (f := .or) rfl rfl (by simp [Instr.op]) (by decide) nofun
  | xor a b => exact aluTwo_accounts (n := .xor a b) (f := .xor) rfl rfl (by simp [Instr.op]) (by decide) nofun
  | shl a b => exact aluTwo_accounts (n := .shl a b) (f := .shl) rfl rfl (by simp [Instr.op]) (by decide) nofun
  | shr a b => exact aluTwo_accounts (n := .shr a b) (f := .shr) rfl rfl (by simp [Instr.op]) (by decide) nofun

/-- Every instruction answers a next state in every state (R123). -/
theorem exec_next (i : Instr) (s : State) : ∃ t, exec i s = .next t := by
  rcases exec_cases i s with ⟨e, -, h⟩ | ⟨t, -, h⟩
  · exact ⟨_, h⟩
  · exact ⟨t, h⟩

end Sys2Proof.Machine
end

