-- ==== Sys2Proof/Laws/Step.lean ====
section
/-! SUPPORT. What the fetch and the step answer, case by case. -/

namespace Sys2Proof.Machine

theorem State.status_running {s : State} : s.status = .running ↔ s.halted = false ∧ s.fault = none := by
  cases h : s.halted <;> cases hf : s.fault <;> simp [State.status, h, hf]

theorem State.status_halted {s : State} : s.status = .halted ↔ s.halted = true := by
  cases h : s.halted <;> cases hf : s.fault <;> simp [State.status, h, hf]

theorem State.status_faulted {s : State} : s.status = .faulted ↔ s.halted = false ∧ ∃ r, s.fault = some r := by
  cases h : s.halted <;> cases hf : s.fault <;> simp [State.status, h, hf]

theorem readBytes_one (s : State) {p : Nat} (h : p < 256) : readBytes s p 1 = .ok [s.byteAt p] := by
  simp [readBytes, memRead_inside s h]

theorem readBytes_two (s : State) {p : Nat} (h : p + 1 < 256) :
    readBytes s p 2 = .ok [s.byteAt p, s.byteAt (p + 1)] := by
  have h2 : memRead s ((p : Int) + 1) = .ok (s.byteAt (p + 1)) := memRead_inside s h
  simp [readBytes, memRead_inside s (show p < 256 by omega), h2]

theorem readBytes_past_end (s : State) {p n : Nat} (h : 256 ≤ p) : readBytes s p (n + 1) = .error ⟨.outOfBounds, p⟩ := by
  simp [readBytes, memRead_past_end s h]

theorem readBytes_two_last (s : State) {p : Nat} (h : p = 255) : readBytes s p 2 = .error ⟨.outOfBounds, 256⟩ := by
  subst h
  have h2 : memRead s 256 = .error ⟨.outOfBounds, 256⟩ := memRead_past_end s (Nat.le_refl 256)
  have h1 : memRead s 255 = .ok (s.byteAt 255) := memRead_inside s (show 255 < 256 by omega)
  simp [readBytes, h1, h2]

/-- Opcode fetch outside memory (R112). -/
theorem fetch_pc_outside {s : State} (h : 256 ≤ s.pc) : fetch s = .error ⟨none, ⟨.outOfBounds, s.pc⟩⟩ := by
  simp [fetch, memRead_past_end s h]

/-- An opcode byte with no entry in the map (R113). -/
theorem fetch_illegal {s : State} (h : s.pc < 256) (hc : Op.ofCode (s.byteAt s.pc) = none) :
    fetch s = .error ⟨some (s.byteAt s.pc), ⟨.illegalInstruction, (s.byteAt s.pc).toNat⟩⟩ := by
  simp [fetch, memRead_inside s h, hc]

/-- An operand byte past the end of memory (R114): the first such address is 256. -/
theorem fetch_operand_outside {s : State} {o : Op} (h : s.pc < 256) (hc : s.byteAt s.pc = o.code)
    (hl : 256 < s.pc + o.length) : fetch s = .error ⟨some o.code, ⟨.outOfBounds, 256⟩⟩ := by
  have hb : readBytes s (s.pc + 1) o.operands = .error ⟨.outOfBounds, 256⟩ := by
    have hle := o.operands_le
    unfold Op.length at hl
    generalize o.operands = n at hle hl
    match n, hle with
    | 0, _ => omega
    | 1, _ =>
      have hp : s.pc + 1 = 256 := by omega
      rw [hp]; exact readBytes_past_end s (Nat.le_refl _)
    | 2, _ =>
      by_cases hp : s.pc + 1 = 256
      · rw [hp]; exact readBytes_past_end s (Nat.le_refl _)
      · exact readBytes_two_last s (by omega)
  simp [fetch, memRead_inside s h, hc, hb]

theorem fetch_zero {s : State} {o : Op} (h : s.pc < 256) (hc : s.byteAt s.pc = o.code) (ho : o.operands = 0) :
    fetch s = .ok (o.build 0#8 0#8) := by
  simp [fetch, memRead_inside s h, hc, ho, readBytes]

theorem fetch_one {s : State} {o : Op} (h : s.pc + 1 < 256) (hc : s.byteAt s.pc = o.code) (ho : o.operands = 1) :
    fetch s = .ok (o.build (s.byteAt (s.pc + 1)) 0#8) := by
  simp [fetch, memRead_inside s (show s.pc < 256 by omega), hc, ho, readBytes_one s h]

theorem fetch_two {s : State} {o : Op} (h : s.pc + 2 < 256) (hc : s.byteAt s.pc = o.code) (ho : o.operands = 2) :
    fetch s = .ok (o.build (s.byteAt (s.pc + 1)) (s.byteAt (s.pc + 2))) := by
  simp [fetch, memRead_inside s (show s.pc < 256 by omega), hc, ho, readBytes_two s (show s.pc + 1 + 1 < 256 by omega)]

/-- What the fetch answers (R112 to R114), and nothing else. -/
theorem fetch_cases (s : State) :
    (256 ≤ s.pc ∧ fetch s = .error ⟨none, ⟨.outOfBounds, s.pc⟩⟩) ∨
    (s.pc < 256 ∧ Op.ofCode (s.byteAt s.pc) = none ∧
      fetch s = .error ⟨some (s.byteAt s.pc), ⟨.illegalInstruction, (s.byteAt s.pc).toNat⟩⟩) ∨
    (∃ o : Op, s.pc < 256 ∧ s.byteAt s.pc = o.code ∧ 256 < s.pc + o.length ∧
      fetch s = .error ⟨some o.code, ⟨.outOfBounds, 256⟩⟩) ∨
    (∃ i : Instr, s.byteAt s.pc = i.op.code ∧ s.pc + i.op.length ≤ 256 ∧ fetch s = .ok i) := by
  by_cases h : 256 ≤ s.pc
  · exact .inl ⟨h, fetch_pc_outside h⟩
  · have h : s.pc < 256 := by omega
    refine .inr ?_
    cases hc : Op.ofCode (s.byteAt s.pc) with
    | none => exact .inl ⟨h, rfl, fetch_illegal h hc⟩
    | some o =>
      have hc := Op.ofCode_eq_some.mp hc
      refine .inr ?_
      by_cases hl : 256 < s.pc + o.length
      · exact .inl ⟨o, h, hc, hl, fetch_operand_outside h hc hl⟩
      · refine .inr ?_
        have hle := o.operands_le
        have hlen : o.length = 1 + o.operands := rfl
        rcases (by omega : o.operands = 0 ∨ o.operands = 1 ∨ o.operands = 2) with ho | ho | ho
        · exact ⟨_, by simpa using hc, by simp; omega, fetch_zero h hc ho⟩
        · exact ⟨_, by simpa using hc, by simp; omega, fetch_one (by omega) hc ho⟩
        · exact ⟨_, by simpa using hc, by simp; omega, fetch_two (by omega) hc ho⟩

/-- The bytes from an address on, read one at a time. -/
theorem bytesFrom_eq (s : State) (n : Nat) :
    s.bytesFrom n = if n < 256 then s.byteAt n :: s.bytesFrom (n + 1) else [] := by
  unfold State.bytesFrom
  rw [memSize_eq]
  split
  · rw [show 256 - n = (256 - (n + 1)) + 1 by omega, List.range'_succ]; rfl
  · rw [show 256 - n = 0 by omega]; rfl

/-- The fetch reads the instruction the decoder reads from the bytes at `pc`. -/
theorem fetch_of_decode {s : State} {i : Instr} {rest : List Byte}
    (h : decode (s.bytesFrom s.pc) = .ok (i, rest)) : fetch s = .ok i := by
  rw [bytesFrom_eq] at h
  split at h
  · obtain ⟨o, ⟨h0, hb, rfl⟩ | ⟨h0, b, hb, rfl⟩ | ⟨h0, b, b2, hb, rfl⟩⟩ := decode_ok_cases h
    · simp only [List.cons.injEq] at hb
      exact fetch_zero ‹_› hb.1 h0
    · rw [bytesFrom_eq] at hb
      split at hb
      · simp only [List.cons.injEq] at hb
        obtain ⟨h1, rfl, -⟩ := hb
        exact fetch_one (by omega) h1 h0
      · simp at hb
    · rw [bytesFrom_eq] at hb
      split at hb
      · rw [bytesFrom_eq] at hb
        split at hb
        · simp only [List.cons.injEq] at hb
          obtain ⟨h1, rfl, rfl, -⟩ := hb
          exact fetch_two (by omega) h1 h0
        · simp at hb
      · simp at hb
  · simp [decode] at h

/-- The decoder reads the instruction the fetch reads. -/
theorem decode_of_fetch {s : State} {i : Instr} (h : fetch s = .ok i) :
    ∃ rest, decode (s.bytesFrom s.pc) = .ok (i, rest) := by
  rcases fetch_cases s with ⟨-, h'⟩ | ⟨-, -, h'⟩ | ⟨o, -, -, -, h'⟩ | ⟨j, hc, hl, h'⟩ <;> rw [h'] at h <;> cases h
  have hle := i.op.operands_le
  have hlen : i.op.length = 1 + i.op.operands := rfl
  rcases (by omega : i.op.operands = 0 ∨ i.op.operands = 1 ∨ i.op.operands = 2) with ho | ho | ho
  · rw [fetch_zero (by omega) hc ho] at h'
    injection h' with h'
    exact ⟨s.bytesFrom (s.pc + 1), by rw [bytesFrom_eq, if_pos (by omega), hc, decode_zero ho, h']⟩
  · rw [fetch_one (by omega) hc ho] at h'
    injection h' with h'
    refine ⟨s.bytesFrom (s.pc + 2), ?_⟩
    rw [bytesFrom_eq, if_pos (by omega), hc, bytesFrom_eq, if_pos (by omega), decode_one ho, h']
  · rw [fetch_two (by omega) hc ho] at h'
    injection h' with h'
    refine ⟨s.bytesFrom (s.pc + 3), ?_⟩
    rw [bytesFrom_eq, if_pos (by omega), hc, bytesFrom_eq, if_pos (by omega), bytesFrom_eq, if_pos (by omega),
      decode_two ho, h']

theorem step_halted {s : State} (h : s.halted = true) : step s = .fault .halted := by
  simp [step, h]

theorem step_faulted {s : State} (h : s.halted = false) {r : FaultRecord} (hf : s.fault = some r) :
    step s = .fault (.faulted r) := by
  simp [step, h, hf]

theorem step_fetch_fault {s : State} (h : s.status = .running) {f : FetchFault} (hf : fetch s = .error f) :
    step s = .next (s.raise f.opcode f.raised) := by
  obtain ⟨h1, h2⟩ := State.status_running.mp h
  simp [step, h1, h2, hf]

theorem step_runs {s : State} (h : s.status = .running) {i : Instr} (hf : fetch s = .ok i) : step s = exec i s := by
  obtain ⟨h1, h2⟩ := State.status_running.mp h
  simp [step, h1, h2, hf]

/-- A step that answers a next state started Running, and either its fetch raised, or its instruction did, or the
instruction had its effect. -/
theorem step_next_cases {s t : State} (h : step s = .next t) :
    s.status = .running ∧
    ((∃ f, fetch s = .error f ∧ t = s.raise f.opcode f.raised) ∨
     ∃ i, fetch s = .ok i ∧ ((∃ e, Raises s i e ∧ t = s.raise (some i.op.code) e) ∨ Effect s i t)) := by
  cases hs : s.status with
  | halted => rw [step_halted (State.status_halted.mp hs)] at h; cases h
  | faulted =>
    obtain ⟨h1, r, h2⟩ := State.status_faulted.mp hs
    rw [step_faulted h1 h2] at h; cases h
  | running =>
    refine ⟨rfl, ?_⟩
    cases hf : fetch s with
    | error f =>
      rw [step_fetch_fault hs hf] at h
      injection h with h
      exact .inl ⟨f, rfl, h.symm⟩
    | ok i =>
      rw [step_runs hs hf] at h
      refine .inr ⟨i, rfl, ?_⟩
      rcases exec_cases i s with ⟨e, he, hx⟩ | ⟨u, hu, hx⟩
      · rw [hx] at h; injection h with h; exact .inl ⟨e, he, h.symm⟩
      · rw [hx] at h; injection h with h; exact .inr (h ▸ hu)

end Sys2Proof.Machine
end

