-- ==== Sys2Proof/Laws/Host.lean ====
section
/-! SUPPORT. The host's side: what a run and a load answer, and that every operation that writes memory keeps its form. -/

namespace Sys2Proof.Machine

/-- A run from a terminal state is a no-op (R111). -/
theorem run_terminal {s : State} (h : s.status ≠ .running) (budget : Nat) : run budget s = .ended s := by
  unfold run
  split <;> simp_all

/-- A budget of 0 leaves a Running state as it is (R276). -/
theorem run_zero {s : State} (h : s.status = .running) : run 0 s = .budgetExhausted s := by
  unfold run; simp [h]

/-- A run is its first step and the run after it (R119). -/
theorem run_succ {s t : State} (h : s.status = .running) (ht : step s = .next t) (n : Nat) : run (n + 1) s = run n t := by
  rw [run]; simp [h, ht]

theorem loadLines_skipped (s : State) (addr line : Nat) {l : List Char} (ls : List (List Char)) (h : readLine l = .skipped) :
    loadLines s addr line (l :: ls) = loadLines s addr (line + 1) ls := by
  simp [loadLines, h]

theorem loadLines_malformed (s : State) (addr line : Nat) {l : List Char} (ls : List (List Char))
    (h : readLine l = .malformed) : loadLines s addr line (l :: ls) = .error ⟨.loadError, line⟩ := by
  simp [loadLines, h]

theorem loadLines_byte (s : State) {addr : Nat} (line : Nat) {l : List Char} {v : Byte} (ls : List (List Char))
    (h : readLine l = .byte v) (ha : addr < 256) :
    loadLines s addr line (l :: ls) = loadLines (s.setByte addr v) (addr + 1) (line + 1) ls := by
  simp [loadLines, h, memWrite_inside s ha]

theorem loadLines_full (s : State) {addr : Nat} (line : Nat) {l : List Char} {v : Byte} (ls : List (List Char))
    (h : readLine l = .byte v) (ha : 256 ≤ addr) : loadLines s addr line (l :: ls) = .error ⟨.loadError, line⟩ := by
  have ho : outside (addr : Int) = true := outside_iff.mpr (by omega)
  simp [loadLines, h, memWrite_outside s ho]

/-- Memory in its canonical form, and inside the address space. -/
def State.MemOk (s : State) : Prop := s.mem.wf = true ∧ s.mem.inRange = true

theorem reset_memOk : State.reset.MemOk := ⟨rfl, rfl⟩

theorem State.MemOk.setByte {s : State} (h : s.MemOk) {a : Nat} (ha : a < 256) (v : Byte) : (s.setByte a v).MemOk :=
  ⟨Memory.wf_set h.1 a v, Memory.inRange_set h.2 (by rw [memSize_eq]; exact ha) v⟩

theorem State.MemOk.memWrite {s t : State} (h : s.MemOk) {a : Int} {v : Byte} (ht : memWrite s a v = .ok t) : t.MemOk := by
  unfold Machine.memWrite at ht
  split at ht
  · cases ht
  · next ho =>
    have := outside_eq_false.mp (Bool.eq_false_iff.mpr ho)
    cases ht; exact h.setByte (by omega) v

theorem State.MemOk.push {s t : State} (h : s.MemOk) {v : Byte} (ht : push s v = .ok t) : t.MemOk := by
  unfold Machine.push at ht
  split at ht
  · cases ht
  · exact State.MemOk.memWrite (s := s.setSp _) h ht

theorem State.MemOk.placeBytes {s : State} (h : s.MemOk) (addr : Nat) (bs : List Byte) : (placeBytes s addr bs).MemOk := by
  induction bs generalizing s addr with
  | nil => exact h
  | cons b bs ih =>
    refine ih ?_ _
    split
    · next ha => exact h.setByte (by rw [memSize_eq] at ha; exact ha) b
    · exact h

theorem State.MemOk.loadLines {s t : State} (h : s.MemOk) {addr line : Nat} {ls : List (List Char)}
    (ht : loadLines s addr line ls = .ok t) : t.MemOk := by
  induction ls generalizing s addr line with
  | nil => cases ht; exact h
  | cons l ls ih =>
    cases hl : readLine l with
    | skipped => rw [loadLines_skipped _ _ _ _ hl] at ht; exact ih h ht
    | malformed => rw [loadLines_malformed _ _ _ _ hl] at ht; cases ht
    | byte v =>
      by_cases ha : addr < 256
      · rw [loadLines_byte _ _ _ hl ha] at ht; exact ih (h.setByte ha v) ht
      · rw [loadLines_full _ _ _ hl (by omega)] at ht; cases ht

end Sys2Proof.Machine
end

