-- ==== Sys2Proof/Laws/PerInstr.lean ====
section
/-! SUPPORT. Laws stated of every instruction as syntax, one lemma per constructor. -/

namespace Sys2Proof.Laws

/-- An instruction is its opcode byte and as many operand bytes as its format has, 1 to 3 bytes in all (R80, R90), and its
register fields are its first operand bytes, in order (R82). -/
def Layout.Statement (i : Instr) : Prop :=
  (encode i).head? = some i.op.code ∧ (encode i).length = i.op.length ∧ i.op.length ≤ 3 ∧
    i.regFields = i.operandBytes.take i.regFields.length

theorem Layout.hlt : Layout.Statement .hlt := ⟨rfl, rfl, by decide, rfl⟩
theorem Layout.ret : Layout.Statement .ret := ⟨rfl, rfl, by decide, rfl⟩
theorem Layout.push (a : Byte) : Layout.Statement (.push a) := ⟨rfl, rfl, by simp [Instr.op, Op.length, Op.operands, Op.format, Format.operands], rfl⟩
theorem Layout.pop (a : Byte) : Layout.Statement (.pop a) := ⟨rfl, rfl, by simp [Instr.op, Op.length, Op.operands, Op.format, Format.operands], rfl⟩
theorem Layout.prn (a : Byte) : Layout.Statement (.prn a) := ⟨rfl, rfl, by simp [Instr.op, Op.length, Op.operands, Op.format, Format.operands], rfl⟩
theorem Layout.call (a : Byte) : Layout.Statement (.call a) := ⟨rfl, rfl, by simp [Instr.op, Op.length, Op.operands, Op.format, Format.operands], rfl⟩
theorem Layout.jmp (a : Byte) : Layout.Statement (.jmp a) := ⟨rfl, rfl, by simp [Instr.op, Op.length, Op.operands, Op.format, Format.operands], rfl⟩
theorem Layout.jeq (a : Byte) : Layout.Statement (.jeq a) := ⟨rfl, rfl, by simp [Instr.op, Op.length, Op.operands, Op.format, Format.operands], rfl⟩
theorem Layout.jne (a : Byte) : Layout.Statement (.jne a) := ⟨rfl, rfl, by simp [Instr.op, Op.length, Op.operands, Op.format, Format.operands], rfl⟩
theorem Layout.not (a b : Byte) : Layout.Statement (.not a b) := ⟨rfl, rfl, by simp [Instr.op, Op.length, Op.operands, Op.format, Format.operands], rfl⟩
theorem Layout.ldi (a b : Byte) : Layout.Statement (.ldi a b) := ⟨rfl, rfl, by simp [Instr.op, Op.length, Op.operands, Op.format, Format.operands], rfl⟩
theorem Layout.add (a b : Byte) : Layout.Statement (.add a b) := ⟨rfl, rfl, by simp [Instr.op, Op.length, Op.operands, Op.format, Format.operands], rfl⟩
theorem Layout.sub (a b : Byte) : Layout.Statement (.sub a b) := ⟨rfl, rfl, by simp [Instr.op, Op.length, Op.operands, Op.format, Format.operands], rfl⟩
theorem Layout.mul (a b : Byte) : Layout.Statement (.mul a b) := ⟨rfl, rfl, by simp [Instr.op, Op.length, Op.operands, Op.format, Format.operands], rfl⟩
theorem Layout.div (a b : Byte) : Layout.Statement (.div a b) := ⟨rfl, rfl, by simp [Instr.op, Op.length, Op.operands, Op.format, Format.operands], rfl⟩
theorem Layout.cmp (a b : Byte) : Layout.Statement (.cmp a b) := ⟨rfl, rfl, by simp [Instr.op, Op.length, Op.operands, Op.format, Format.operands], rfl⟩
theorem Layout.and (a b : Byte) : Layout.Statement (.and a b) := ⟨rfl, rfl, by simp [Instr.op, Op.length, Op.operands, Op.format, Format.operands], rfl⟩
theorem Layout.or (a b : Byte) : Layout.Statement (.or a b) := ⟨rfl, rfl, by simp [Instr.op, Op.length, Op.operands, Op.format, Format.operands], rfl⟩
theorem Layout.xor (a b : Byte) : Layout.Statement (.xor a b) := ⟨rfl, rfl, by simp [Instr.op, Op.length, Op.operands, Op.format, Format.operands], rfl⟩
theorem Layout.shl (a b : Byte) : Layout.Statement (.shl a b) := ⟨rfl, rfl, by simp [Instr.op, Op.length, Op.operands, Op.format, Format.operands], rfl⟩
theorem Layout.shr (a b : Byte) : Layout.Statement (.shr a b) := ⟨rfl, rfl, by simp [Instr.op, Op.length, Op.operands, Op.format, Format.operands], rfl⟩

end Sys2Proof.Laws
end

