-- ==== Sys2Proof/Laws/Text.lean ====
section
/-! SUPPORT. What the text operations of the loader and the assembler answer (R91, R272). -/

namespace Sys2Proof.Machine

theorem splitAt_ne_nil (sep : Char) (l : List Char) : splitAt sep l ≠ [] := by
  cases l with
  | nil => simp [splitAt]
  | cons c l => simp only [splitAt]; split <;> [skip; split] <;> simp

/-- Cutting at a separator between two texts cuts each of them. -/
theorem splitAt_append (sep : Char) (a b : List Char) : splitAt sep (a ++ [sep] ++ b) = splitAt sep a ++ splitAt sep b := by
  induction a with
  | nil => simp [splitAt]
  | cons c a ih =>
    simp only [List.cons_append, splitAt]
    split
    · simpa using ih
    · rw [ih]
      cases h : splitAt sep a with
      | nil => exact absurd h (splitAt_ne_nil _ _)
      | cons x xs => rfl

theorem splitAt_of_notMem {sep : Char} {l : List Char} (h : sep ∉ l) : splitAt sep l = [l] := by
  induction l with
  | nil => rfl
  | cons c l ih => simp at h; simp [splitAt, ih h.2, Ne.symm h.1]

theorem dropWhile_isBlank_append {l : List Char} (h : ∀ c ∈ l, isBlank c = true) (r : List Char) :
    (l ++ r).dropWhile isBlank = r.dropWhile isBlank := by
  induction l with
  | nil => rfl
  | cons c l ih => simp at h; simp [h.1]; simpa using ih h.2

theorem dropWhile_isBlank_of_head {l : List Char} (h : ∀ c, l.head? = some c → isBlank c = false) :
    l.dropWhile isBlank = l := by
  cases l with
  | nil => rfl
  | cons c l => simp at h; simp [h]

/-- Trimming takes the blanks around a token that neither begins nor ends with one (R272). -/
theorem trim_of_token {left token right : List Char} (hl : ∀ c ∈ left, isBlank c = true) (hr : ∀ c ∈ right, isBlank c = true)
    (hh : ∀ c, token.head? = some c → isBlank c = false) (ht : ∀ c, token.getLast? = some c → isBlank c = false) :
    trim (left ++ token ++ right) = token := by
  unfold trim
  by_cases h : token = []
  · subst h
    rw [List.append_nil, dropWhile_isBlank_append hl]
    have := dropWhile_isBlank_append hr []
    rw [List.append_nil] at this
    rw [this]; rfl
  · rw [List.append_assoc, dropWhile_isBlank_append hl, dropWhile_isBlank_of_head (l := token ++ right), List.reverse_append,
      dropWhile_isBlank_append, dropWhile_isBlank_of_head, List.reverse_reverse]
    · rw [List.head?_reverse]; exact ht
    · intro c hc; exact hr c (List.mem_reverse.mp hc)
    · cases token with
      | nil => exact absurd rfl h
      | cons c t => simpa using hh

/-- The comment of a line goes, and what stands before its `#` stays (R91, R272). -/
theorem dropComment_append {l rest : List Char} (h : '#' ∉ l) (hr : rest = [] ∨ ∃ cs, rest = '#' :: cs) :
    dropComment (l ++ rest) = l := by
  unfold dropComment
  induction l with
  | nil => rcases hr with rfl | ⟨cs, rfl⟩ <;> simp
  | cons c l ih => simp at h; simp [Ne.symm h.1]; simpa using ih h.2

theorem digitsFrom_append (base acc : Nat) (a b : List Char) :
    digitsFrom base acc (a ++ b) = (digitsFrom base acc a).bind fun n => digitsFrom base n b := by
  induction a generalizing acc with
  | nil => rfl
  | cons c a ih => simp only [List.cons_append, digitsFrom]; split <;> simp [ih]

theorem statements_append (a b : List Char) : statements (a ++ ['\n'] ++ b) = statements a ++ statements b := by
  unfold statements
  rw [splitAt_append, List.map_append, List.flatMap_append, List.filter_append]

theorem statements_line {l : List Char} (h : '\n' ∉ l) :
    statements l = (splitAt ';' (dropComment l)).filter fun t => !(trim t).isEmpty := by
  simp [statements, splitAt_of_notMem h]

theorem assembleAll_append {xs ys : List (List Char)} {bs cs : List Byte} (hx : assembleAll xs = some bs)
    (hy : assembleAll ys = some cs) : assembleAll (xs ++ ys) = some (bs ++ cs) := by
  induction xs generalizing bs with
  | nil => cases hx; exact hy
  | cons x xs ih =>
    simp only [assembleAll] at hx
    split at hx <;> cases hx
    next i b h1 h2 => simp [assembleAll, h1, ih h2]

end Sys2Proof.Machine
end

