-- ==== Sys2Proof/Tests/Slice0.lean ====
section
/-! SUPPORT. The model's own tests: words written out from the encodings of R82 and R86, the smoke tests of WellFormed, single
steps whose expected results are the vectors of spec/95_test_vectors.md (named in the comments), and one witness for the
hypotheses of each statement. -/

namespace Sys2Proof.Tests

open Sys2Proof.Machine Sys2Proof.Claims

/-- The next state of an outcome. -/
def after : Host.Outcome State Fault Refusal → Option State
  | .next t => some t
  | .fault _ => none
  | .refused _ => none

/-- The reset state with bytes at `p`, `pc = p`, and some registers set. -/
def start (p : Nat) (bytes : List Byte) (regs : List (RegIdx × Byte) := []) : State :=
  placeBytes (regs.foldl (fun s r => s.setX r.1 r.2) (State.reset.setPc p)) p bytes

/-- What a step from `s` ends in, looked at through `f`. -/
def ends (s : State) {α : Type} (f : State → α) : Option α := (after (step s)).map f

/-- The fault record a step from `s` ends in: code, pc, opcode, detail. -/
def faults (s : State) : Option (Option (Nat × Nat × Option Byte × Int)) :=
  ends s fun t => t.fault.map fun r => (r.kind.code, r.pc, r.opcode, r.detail)

/-! Words of every family, written out bit by bit (R82, R86). -/

theorem test_decode_hlt : decode [0b00000001#8] = .ok (.hlt, []) := by decide
theorem test_decode_ret : decode [0b00010001#8, 7] = .ok (.ret, [7]) := by decide
theorem test_decode_push : decode [0b01000101#8, 0b00000011#8] = .ok (.push 3, []) := by decide
theorem test_decode_pop : decode [0b01000110#8, 0b00000111#8] = .ok (.pop 7, []) := by decide
theorem test_decode_prn : decode [0b01000111#8, 0b00000000#8] = .ok (.prn 0, []) := by decide
theorem test_decode_call : decode [0b01010000#8, 0b00000001#8] = .ok (.call 1, []) := by decide
theorem test_decode_jmp : decode [0b01010100#8, 0b00000011#8] = .ok (.jmp 3, []) := by decide
theorem test_decode_jeq : decode [0b01010101#8, 0b00001001#8] = .ok (.jeq 9, []) := by decide
theorem test_decode_jne : decode [0b01010110#8, 0b00000011#8] = .ok (.jne 3, []) := by decide
theorem test_decode_not : decode [0b01101001#8, 0b00000000#8, 0b11001000#8] = .ok (.not 0 200, []) := by decide
theorem test_decode_ldi : decode [0b10000010#8, 0b00000101#8, 0b10101011#8, 1] = .ok (.ldi 5 171, [1]) := by decide
theorem test_decode_add : decode [0b10100000#8, 0b00000000#8, 0b00000001#8] = .ok (.add 0 1, []) := by decide
theorem test_decode_sub : decode [0b10100001#8, 0b00000001#8, 0b00000010#8] = .ok (.sub 1 2, []) := by decide
theorem test_decode_mul : decode [0b10100010#8, 0b00000001#8, 0b00000010#8] = .ok (.mul 1 2, []) := by decide
theorem test_decode_div : decode [0b10100011#8, 0b00000001#8, 0b00000010#8] = .ok (.div 1 2, []) := by decide
theorem test_decode_cmp : decode [0b10100111#8, 0b11111111#8, 0b00000000#8] = .ok (.cmp 255 0, []) := by decide
theorem test_decode_and : decode [0b10101000#8, 0b00000001#8, 0b00000010#8] = .ok (.and 1 2, []) := by decide
theorem test_decode_or : decode [0b10101010#8, 0b00000001#8, 0b00000010#8] = .ok (.or 1 2, []) := by decide
theorem test_decode_xor : decode [0b10101011#8, 0b00000001#8, 0b00000010#8] = .ok (.xor 1 2, []) := by decide
theorem test_decode_shl : decode [0b10101100#8, 0b00000001#8, 0b00000010#8] = .ok (.shl 1 2, []) := by decide
theorem test_decode_shr : decode [0b10101101#8, 0b00000001#8, 0b00000010#8] = .ok (.shr 1 2, []) := by decide
theorem test_decode_refuses_gap_169 : decode [169, 0, 0] = .error (.illegal 169) := by decide
theorem test_decode_refuses_short : decode [0xA0, 0] = .error (.truncated .add) := by decide
theorem test_decode_refuses_nothing : decode [] = .error .noOpcode := by decide

/-- The opcode table's numbering: byte0 is the top byte of a row's number (`"match": "0x4500"` is PUSH R0). -/
theorem test_table_word_push : decodeTableWord 16 0x4503 = some (.push 3) := by decide
theorem test_table_word_ldi : decodeTableWord 24 0x820508 = some (.ldi 5 8) := by decide
theorem test_table_word_runs : ends (State.reset.withFetchWord 24 0x820508) (fun t => (t.x 5, t.pc)) = some (8, 3) := by decide

/-! WellFormed: an ill-formed term for each register field it checks, refused by the check. -/

theorem test_wf_accepts : (Instr.add 7 0).wellFormed = true := by decide
theorem test_wf_refuses_first : (Instr.add 8 0).wellFormed = false := by decide
theorem test_wf_refuses_second : (Instr.add 0 8).wellFormed = false := by decide
theorem test_wf_refuses_one_register : (Instr.push 255).wellFormed = false := by decide
theorem test_wf_refuses_ldi_register : (Instr.ldi 8 0).wellFormed = false := by decide
theorem test_wf_refuses_not_register : (Instr.not 8 0).wellFormed = false := by decide
theorem test_wf_accepts_any_unused : (Instr.not 0 200).wellFormed = true := by decide
theorem test_wf_accepts_any_immediate : (Instr.ldi 0 255).wellFormed = true := by decide

/-! Single steps (spec/95_test_vectors.md, the vector named after each). -/

theorem test_add_wraps : ends (start 0 [0xA0, 0, 1] [(0, 200), (1, 100)]) (fun t => (t.x 0, t.x 1, t.pc)) = some (44, 100, 3) := by decide  -- A2
theorem test_add_same : ends (start 0 [0xA0, 2, 2] [(2, 128)]) (fun t => (t.x 2, t.flag)) = some (0, false) := by decide  -- A4
theorem test_sub_wraps : ends (start 0 [0xA1, 0, 1] [(0, 3), (1, 5)]) (fun t => (t.x 0, t.pc)) = some (254, 3) := by decide  -- A5
theorem test_sub_equal_keeps_flag : ends (start 0 [0xA1, 0, 1] [(0, 5), (1, 5)]) (fun t => (t.x 0, t.flag)) = some (0, false) := by decide  -- A8
theorem test_mul_wraps : ends (start 0 [0xA2, 0, 1] [(0, 200), (1, 2)]) (fun t => (t.x 0, t.pc)) = some (144, 3) := by decide  -- A9
theorem test_div_truncates : ends (start 0 [0xA3, 0, 1] [(0, 255), (1, 16)]) (fun t => (t.x 0, t.pc)) = some (15, 3) := by decide  -- A15
theorem test_div_zero_same : faults (start 0 [0xA3, 2, 2]) = some (some (5, 0, some 0xA3, 2)) := by decide  -- A19
theorem test_and : ends (start 0 [0xA8, 0, 1] [(0, 0xF0), (1, 0x3C)]) (fun t => (t.x 0, t.pc)) = some (0x30, 3) := by decide  -- A21
theorem test_or : ends (start 0 [0xAA, 0, 1] [(0, 0xF0), (1, 0x0F)]) (fun t => (t.x 0, t.pc)) = some (0xFF, 3) := by decide  -- A22
theorem test_xor : ends (start 0 [0xAB, 0, 1] [(0, 0xFF), (1, 0x0F)]) (fun t => (t.x 0, t.pc)) = some (0xF0, 3) := by decide  -- A23
theorem test_shl_loses_bit_7 : ends (start 0 [0xAC, 0, 1] [(0, 0x81), (1, 1)]) (fun t => (t.x 0, t.pc)) = some (2, 3) := by decide  -- A27
theorem test_shl_amount_not_masked : ends (start 0 [0xAC, 0, 1] [(0, 0xFF), (1, 0xFF)]) (fun t => t.x 0) = some 0 := by decide  -- A30
theorem test_shr_logical : ends (start 0 [0xAD, 0, 1] [(0, 0x80), (1, 7)]) (fun t => (t.x 0, t.pc)) = some (1, 3) := by decide  -- A32
theorem test_shr_width : ends (start 0 [0xAD, 0, 1] [(0, 0x80), (1, 8)]) (fun t => t.x 0) = some 0 := by decide  -- A33
theorem test_not : ends (start 0 [0x69, 0, 0] [(0, 0x5A)]) (fun t => (t.x 0, t.pc)) = some (0xA5, 3) := by decide  -- A38
theorem test_not_unused_byte : ends (start 0 [0x69, 0, 200]) (fun t => (t.x 0, t.pc)) = some (0xFF, 3) := by decide  -- A40
theorem test_cmp_equal : ends (start 0 [0xA7, 0, 1] [(0, 5), (1, 5)]) (fun t => (t.flag, t.x 0, t.pc)) = some (true, 5, 3) := by decide  -- A41
theorem test_cmp_overwrites : ends ((start 0 [0xA7, 0, 1] [(0, 5), (1, 6)]).setFlag true) (fun t => t.flag) = some false := by decide  -- A42
theorem test_ldi : ends (start 0 [0x82, 5, 0xAB]) (fun t => (t.x 5, t.pc)) = some (171, 3) := by decide  -- W1
theorem test_ldi_sp : ends (start 0 [0x82, 7, 0x10]) (fun t => (t.sp, t.pc)) = some (16, 3) := by decide  -- O3
theorem test_prn : ends (start 0 [0x47, 0] [(0, 17)]) (fun t => (t.out, t.pc)) = some (["value: 17"], 2) := by decide  -- O6
theorem test_prn_unsigned : ends (start 0 [0x47, 0] [(0, 255)]) (fun t => t.out) = some ["value: 255"] := by decide  -- O8
theorem test_push : ends (start 0 [0x45, 0] [(0, 42)]) (fun t => (t.byteAt 0xF3, t.sp, t.pc)) = some (42, 0xF3, 2) := by decide  -- S1
theorem test_push_sp : ends (start 0 [0x45, 7]) (fun t => (t.byteAt 0xF3, t.sp)) = some (0xF4, 0xF3) := by decide  -- S2
theorem test_pop_sp : ends ((start 0 [0x46, 7] [(7, 0xF3)]).setByte 0xF3 0x20) (fun t => (t.sp, t.pc)) = some (0x20, 2) := by decide  -- S8
theorem test_pop_above_sentinel : ends ((start 0 [0x46, 1] [(7, 0xF5)]).setByte 0xF5 7) (fun t => (t.x 1, t.sp)) = some (7, 0xF6) := by decide  -- S10
theorem test_hlt_last_cell : ends (start 255 [1]) (fun t => (t.halted, t.pc, t.status)) = some (true, 256, .halted) := by decide  -- K2
theorem test_jmp : ends (start 0 [0x54, 3] [(3, 12)]) (fun t => t.pc) = some 12 := by decide  -- K3
theorem test_jeq_taken : ends ((start 28 [0x55, 3] [(3, 31)]).setFlag true) (fun t => t.pc) = some 31 := by decide  -- K7
theorem test_jeq_not_taken : ends (start 28 [0x55, 3] [(3, 31)]) (fun t => t.pc) = some 30 := by decide  -- K8
theorem test_jne_taken : ends (start 20 [0x56, 3] [(3, 12)]) (fun t => t.pc) = some 12 := by decide  -- K9
theorem test_jne_not_taken : ends ((start 20 [0x56, 3] [(3, 12)]).setFlag true) (fun t => t.pc) = some 22 := by decide  -- K10
theorem test_call : ends (start 8 [0x50, 1] [(1, 15), (7, 0xF3)]) (fun t => (t.byteAt 0xF2, t.sp, t.pc)) = some (10, 0xF2, 15) := by decide  -- K12
theorem test_call_sp : ends (start 0 [0x50, 7]) (fun t => (t.byteAt 0xF3, t.sp, t.pc)) = some (2, 0xF3, 0xF4) := by decide  -- K14
theorem test_ret : ends ((start 18 [0x11] [(7, 0xF2)]).setByte 0xF2 10) (fun t => (t.pc, t.sp)) = some (10, 0xF3) := by decide  -- K16
theorem test_ret_underflow : faults (start 0 [0x11]) = some (some (6, 0, some 0x11, 0xF4)) := by decide  -- K17

/-! Faults of the fetch, the register check, the stack and CALL. -/

theorem test_fault_pc_256 : faults (start 256 []) = some (some (1, 256, none, 256)) := by decide  -- E6
theorem test_fault_empty_memory : faults State.reset = some (some (3, 0, some 0, 0)) := by decide  -- E1
theorem test_fault_gap_164 : faults (start 0 [0xA4, 0, 1]) = some (some (3, 0, some 0xA4, 0xA4)) := by decide  -- E3
theorem test_fault_second_operand : faults (start 254 [0xA0, 0]) = some (some (1, 0xFE, some 0xA0, 256)) := by decide  -- A49
theorem test_fault_first_operand : faults (start 255 [0x47]) = some (some (1, 0xFF, some 0x47, 256)) := by decide  -- O11
theorem test_fault_a_before_b : faults (start 0 [0xA0, 8, 9]) = some (some (2, 0, some 0xA0, 8)) := by decide  -- A46
theorem test_fault_register_before_divisor : faults (start 0 [0xA3, 8, 0]) = some (some (2, 0, some 0xA3, 8)) := by decide  -- A47
theorem test_fault_jeq_not_taken : faults (start 0 [0x55, 9]) = some (some (2, 0, some 0x55, 9)) := by decide  -- K11
theorem test_fault_push_at_zero : faults (start 0 [0x45, 0] [(7, 0)]) = some (some (1, 0, some 0x45, -1)) := by decide  -- S4
theorem test_fault_pop_empty : faults (start 0 [0x46, 1]) = some (some (6, 0, some 0x46, 0xF4)) := by decide  -- S7
theorem test_fault_pop_top : faults (start 0 [0x46, 1] [(7, 0xFF)]) = some (some (1, 0, some 0x46, 256)) := by decide  -- S9
theorem test_fault_call_254 : faults (start 254 [0x50, 1] [(1, 15)]) = some (some (1, 0xFE, some 0x50, 256)) := by decide  -- K13
theorem test_fault_is_precise : ends (start 0 [0xA3, 0, 1] [(0, 7)]) (fun t => (t.x 0, t.pc, t.status)) = some (7, 0, .faulted) := by decide  -- A20
theorem test_no_step_when_halted : after (step (start 0 [1]).setHalted) = none := by decide  -- E7

/-! The loader and the assembler (spec/95_test_vectors.md L2.6; R91, R92). -/

/-- The memory a load leaves, or the line of its LoadError. -/
def loaded (text : String) : Memory ⊕ Int :=
  match launch text.toList with
  | .ok s => .inl s.mem
  | .error e => .inr e.detail

theorem test_load_comments : loaded "10000010 # LDI R0,8\n00000000\n00001000" = .inl [(0, 130), (2, 8)] := by decide  -- LD1
theorem test_load_skips : loaded "# header\n\n00000001" = .inl [(0, 1)] := by decide  -- LD2
theorem test_load_trims : loaded "  101  " = .inl [(0, 5)] := by decide  -- LD3
theorem test_load_leading_zeros : loaded "000000001" = .inl [(0, 1)] := by decide  -- LD4
theorem test_load_error_line_2 : loaded "10000010\n2" = .inr 2 := by decide  -- LD5
theorem test_load_error_256 : loaded "100000000" = .inr 1 := by decide  -- LD6
theorem test_load_error_literal_base : loaded "0b101" = .inr 1 := by decide  -- LD7
theorem test_load_error_inner_space : loaded "1010 0000" = .inr 1 := by decide  -- LD10
theorem test_assemble : assemble "LDI r0,8; LDI r1,9; ADD r0,r1; PRN r0; HLT".toList = some [130, 0, 8, 130, 1, 9, 160, 0, 1, 71, 0, 1] := by decide  -- W7
theorem test_assemble_not : assemble "not SP # shorthand\n NOT R1, 0xC8".toList = some [105, 7, 0, 105, 1, 200] := by decide  -- R92

theorem test_assemble_spellings : assemble "\tadd\tSP ,r3 ;ldi R5,0xaB# ; HLT\n\nLdi r0, 0b101;Hlt".toList =
    some [160, 7, 3, 130, 5, 0xAB, 130, 0, 5, 1] := by decide  -- R91

/-! Witnesses: for each statement with hypotheses, a concrete state and operands that meet all of them together. -/

theorem witness_DecodeAndEncodeAgree : decode [0x45, 3, 9] = .ok (.push 3, [9]) := by decide
theorem witness_TheOpcodeAloneGivesTheLength :
    decode [0x45, 3, 9] = .ok (.push 3, [9]) ∧ [0x45#8, 1].head? = [0x45#8, 3, 9].head? ∧
      decode [0x45, 1] = .ok (.push 1, []) := by decide
theorem witness_IllegalOpcodes :
    (start 255 [0xFF]).status = .running ∧ (start 255 [0xFF]).pc < 256 ∧
      illegalCode ((start 255 [0xFF]).byteAt (start 255 [0xFF]).pc).toNat = true := by decide
theorem witness_EveryStepKeepsTheInvariant : (start 0 [0x45, 7]).Inv ∧ ∃ t, step (start 0 [0x45, 7]) = .next t :=
  ⟨⟨by decide, by decide, by decide, by decide, fun _ h => absurd h nofun, nofun⟩, _, rfl⟩
theorem witness_EveryStateOfEveryRun :
    ∃ s t, launch "00000001".toList = .ok s ∧ Reaches s t ∧ t.halted = true :=
  ⟨_, _, rfl, ⟨1, _, rfl, rfl⟩, rfl⟩
theorem witness_StepRunsTheDecodedInstruction :
    (start 253 [0xA0, 0, 1]).status = .running ∧
      decode ((start 253 [0xA0, 0, 1]).bytesFrom (start 253 [0xA0, 0, 1]).pc) = .ok (.add 0 1, []) := by decide
theorem witness_Undecodable_noOpcode :
    (start 256 []).status = .running ∧ decode ((start 256 []).bytesFrom (start 256 []).pc) = .error .noOpcode := by decide
theorem witness_Undecodable_illegal :
    (start 255 [0]).status = .running ∧ decode ((start 255 [0]).bytesFrom (start 255 [0]).pc) = .error (.illegal 0) := by decide
theorem witness_Undecodable_truncated :
    (start 254 [0xA0, 0]).status = .running ∧
      decode ((start 254 [0xA0, 0]).bytesFrom (start 254 [0xA0, 0]).pc) = .error (.truncated .add) := by decide

/-- A state that holds a fault record. -/
def faulted : State := State.reset.raise (some 0) ⟨.illegalInstruction, 0⟩

theorem witness_StepsAreTaken_halted : State.reset.setHalted.status = .halted := by decide
theorem witness_StepsAreTaken_faulted :
    faulted.status = .faulted ∧ faulted.fault = some ⟨.illegalInstruction, 0, some 0, 0⟩ := by decide
theorem witness_OpcodeFetch_past : (start 256 []).status = .running ∧ 256 ≤ (start 256 []).pc := by decide
theorem witness_OpcodeFetch_inside :
    (start 255 []).status = .running ∧ (start 255 []).pc < 256 ∧
      ∃ t r, step (start 255 []) = .next t ∧ t.fault = some r :=
  ⟨by decide, by decide, _, _, rfl, rfl⟩

/-- The hypotheses of `OperandFetchFaults` at the byte `k` after an opcode at address `p`. -/
def fetchFaultHypotheses (o : Op) (p k : Nat) : Bool :=
  let s := start p [o.code]
  s.status = .running && s.pc < 256 && s.byteAt s.pc = o.code && 1 ≤ k && k ≤ o.operands && s.pc + (k - 1) < 256 &&
    256 ≤ s.pc + k

theorem witness_OperandFetchFaults_first : ∀ o ∈ Op.all, 1 ≤ o.operands → fetchFaultHypotheses o 255 1 = true := by decide
theorem witness_OperandFetchFaults_second : ∀ o ∈ Op.all, 2 ≤ o.operands → fetchFaultHypotheses o 254 2 = true := by decide
theorem witness_OperandBytes_inside :
    (start 253 [0xA0]).status = .running ∧ (start 253 [0xA0]).pc + Op.add.operands < 256 ∧
      (start 253 [0xA0]).byteAt (start 253 [0xA0]).pc = Op.add.code := by decide
theorem witness_RegisterFields_first : (Instr.add 8 9).regFields = [] ++ 8 :: [9] ∧ 8 ≤ (8#8).toNat := by decide
theorem witness_RegisterFields_second :
    (Instr.add 7 8).regFields = [7] ++ 8 :: [] ∧ (∀ w ∈ [7#8], w.toNat < 8) ∧ 8 ≤ (8#8).toNat := by decide
theorem witness_RegisterFields_valid :
    (∀ w ∈ (Instr.div 0 1).regFields, w.toNat < 8) ∧ State.reset.fault = none ∧
      ∃ t r, exec (.div 0 1) State.reset = .next t ∧ t.fault = some r :=
  ⟨by decide, rfl, _, _, rfl, rfl⟩
theorem witness_ProgramCounter_next : Fetches (start 0 [0x54, 7]) (.jmp 7) ∧
    ∃ t, step (start 0 [0x54, 7]) = .next t ∧ t.fault = none :=
  ⟨⟨_, rfl⟩, _, rfl, rfl⟩
theorem witness_ProgramCounter_fault : Fetches (start 0 [0x11]) .ret ∧
    ∃ t, step (start 0 [0x11]) = .next t ∧ t.fault ≠ none :=
  ⟨⟨_, rfl⟩, _, rfl, nofun⟩
theorem witness_OnlyCmp_changes : ∃ t, step (start 0 [0xA7, 0, 0]) = .next t ∧ t.flag ≠ (start 0 [0xA7, 0, 0]).flag :=
  ⟨_, rfl, by decide⟩
theorem witness_OnlyCmp_faults : ∃ t, step (start 0 [0xA7, 8, 0]) = .next t ∧ t.fault ≠ none := ⟨_, rfl, nofun⟩
theorem witness_OnlyCmp_reads : (∀ a, Instr.hlt ≠ .jeq a ∧ Instr.hlt ≠ .jne a) ∧ ∃ t, exec .hlt State.reset = .next t :=
  ⟨fun _ => ⟨nofun, nofun⟩, _, rfl⟩
theorem witness_ExactlyHlt_step : ∃ t, step (start 0 [1]) = .next t ∧ t.halted = true := ⟨_, rfl, rfl⟩
theorem witness_ExactlyHlt_halted : State.reset.setHalted.halted = true ∧ Reaches State.reset.setHalted State.reset.setHalted :=
  ⟨rfl, 0, rfl⟩
theorem witness_OnlyPushAndCall :
    ∃ t, step (start 0 [0x45, 7]) = .next t ∧ t.byteAt 0xF3 ≠ (start 0 [0x45, 7]).byteAt 0xF3 :=
  ⟨_, rfl, by decide⟩
theorem witness_Prn_step : ∃ t, step (start 0 [0x47, 0]) = .next t ∧ t.out ≠ (start 0 [0x47, 0]).out :=
  ⟨_, rfl, by decide⟩
theorem witness_Faults_step : ∃ t r, step State.reset = .next t ∧ t.fault = some r := ⟨_, _, rfl, rfl⟩
theorem witness_TaxonomyRow_operand : TaxonomyRow (start 254 [0xA0, 0]) .outOfBounds 256 :=
  .inr (.inl ⟨.add, 2, by decide, by decide, by decide, by decide, by decide, by decide⟩)
theorem witness_TaxonomyRow_push : TaxonomyRow (start 0 [0x45, 0] [(7, 0)]) .outOfBounds (-1) :=
  .inr (.inr (.inl ⟨0, by decide, .inl ⟨_, rfl⟩, by decide, rfl⟩))
theorem witness_TaxonomyRow_call : TaxonomyRow (start 254 [0x50, 1]) .outOfBounds 256 :=
  .inr (.inr (.inr (.inr ⟨1, by decide, ⟨_, rfl⟩, rfl, rfl⟩)))
theorem witness_TaxonomyRow_second_register : TaxonomyRow (start 0 [0xA0, 7, 8]) .invalidRegister 8 :=
  ⟨.add 7 8, [7], [], 8, ⟨_, rfl⟩, rfl, by decide, by decide, rfl⟩
theorem witness_TaxonomyRow_divisor : TaxonomyRow (start 0 [0xA3, 2, 2]) .divisionByZero 2 :=
  ⟨2, 2, 2, ⟨_, rfl⟩, by decide, by decide, by decide, rfl⟩
theorem witness_TaxonomyRow_underflow : TaxonomyRow (start 0 [0x11]) .stackUnderflow 0xF4 :=
  ⟨.inl ⟨_, rfl⟩, by decide, rfl⟩
theorem witness_FaultRecord_past :
    256 ≤ (start 256 []).pc ∧ ∃ t r, step (start 256 []) = .next t ∧ t.fault = some r :=
  ⟨by decide, _, _, rfl, rfl⟩
theorem witness_FirstFault_some :
    (start 255 [0x45]).status = .running ∧ firstFault (start 255 [0x45]) = some ⟨.outOfBounds, 255, some 0x45, 256⟩ := by decide
theorem witness_FirstFault_none : (start 255 [1]).status = .running ∧ firstFault (start 255 [1]) = none := by decide

/-- Operand bytes that name registers: the boundary values of every per-instruction statement. -/
theorem witness_operands_valid : (0#8).toNat = (0 : RegIdx).val ∧ (7#8).toNat = (7 : RegIdx).val := by decide
/-- Operand bytes that name none. -/
theorem witness_operands_invalid : 8 ≤ (8#8).toNat ∧ 8 ≤ (255#8).toNat ∧ (7#8).toNat < 8 := by decide
theorem witness_Div_nonzero : (0#8).toNat = (0 : RegIdx).val ∧ (7#8).toNat = (7 : RegIdx).val ∧
    (State.reset.x 7).toNat ≠ 0 := by decide
theorem witness_Div_zero : (7#8).toNat < 8 ∧ (0#8).toNat = (0 : RegIdx).val ∧ (State.reset.x 0).toNat = 0 := by decide
theorem witness_Jumps_flag :
    (7#8).toNat = (7 : RegIdx).val ∧ State.reset.flag = false ∧ (State.reset.setFlag true).flag = true := by decide
theorem witness_Push_stores : (7#8).toNat = (7 : RegIdx).val ∧ (State.reset.setSp 1).sp.toNat ≠ 0 := by decide
theorem witness_Push_at_zero : (7#8).toNat < 8 ∧ (State.reset.setSp 0).sp.toNat = 0 := by decide
theorem witness_Pop_reads : (7#8).toNat = (7 : RegIdx).val ∧ (State.reset.setSp 254).sp.toNat ≠ 0xF4 ∧
    (State.reset.setSp 254).sp.toNat ≠ 255 := by decide
theorem witness_Pop_empty : (7#8).toNat < 8 ∧ State.reset.sp.toNat = 0xF4 := by decide
theorem witness_Pop_top : (7#8).toNat < 8 ∧ (State.reset.setSp 255).sp.toNat = 255 := by decide
theorem witness_Call_pushes : (7#8).toNat = (7 : RegIdx).val ∧ (State.reset.setPc 253).pc + 2 ≤ 255 ∧
    (State.reset.setPc 253).sp.toNat ≠ 0 := by decide
theorem witness_Call_returnAddress : (7#8).toNat < 8 ∧ 255 < (State.reset.setPc 254).pc + 2 := by decide
theorem witness_Call_at_zero : (7#8).toNat < 8 ∧ (State.reset.setSp 0).pc + 2 ≤ 255 ∧ (State.reset.setSp 0).sp.toNat = 0 := by
  decide
theorem witness_PushThenPop_sentinel :
    (7#8).toNat = (7 : RegIdx).val ∧ (State.reset.setSp 0xF5).sp.toNat ≠ 0 ∧ (State.reset.setSp 0xF5).sp.toNat = 0xF5 := by decide
theorem witness_CallThenRet :
    (1#8).toNat = (1 : RegIdx).val ∧ State.reset.pc + 2 ≤ 255 ∧ State.reset.sp.toNat ≠ 0 ∧ State.reset.sp.toNat ≠ 0xF5 ∧
      ∃ t, exec (.call 1) State.reset = .next t ∧ t.sp = t.sp ∧ t.byteAt t.sp.toNat = t.byteAt t.sp.toNat :=
  ⟨by decide, by decide, by decide, by decide, _, rfl, rfl, rfl⟩
theorem witness_Stack_depth : State.reset.sp.toNat = 0xF4 ∧ (List.replicate 244 1#8).length ≤ 244 ∧
    244 < (List.replicate 245 1#8).length :=
  ⟨by decide, Nat.le_of_eq List.length_replicate, by rw [List.length_replicate]; exact Nat.lt_succ_self 244⟩
theorem witness_Underflow : State.reset.fault = none ∧ (7#8).toNat < 8 ∧ (∃ t, exec (.pop 7) State.reset = .next t) ∧
    ∃ t, exec .ret State.reset = .next t :=
  ⟨rfl, by decide, ⟨_, rfl⟩, _, rfl⟩
theorem witness_Memory_bounds :
    ((-1 : Int) < 0 ∨ (256 : Int) ≤ -1) ∧ ((256 : Int) < 0 ∨ (256 : Int) ≤ 256) ∧ ((0 : Int) ≤ 255 ∧ (255 : Int) < 256) := by
  decide
theorem witness_PushedByte :
    (start 8 [0x45, 0] [(0, 1), (7, 11)]).status = .running ∧ (start 8 [0x45, 0] [(0, 1), (7, 11)]).sp.toNat ≠ 0 ∧ Fetches (start 8 [0x45, 0] [(0, 1), (7, 11)]) (.push 0) ∧
      (0#8).toNat = (0 : RegIdx).val ∧ pushAddr (start 8 [0x45, 0] [(0, 1), (7, 11)]) = (8 + 2 : Nat) ∧
      (start 8 [0x45, 0] [(0, 1), (7, 11)]).x 0 = 0x01#8 :=
  ⟨by decide, by decide, ⟨_, rfl⟩, by decide, by decide, by decide⟩
theorem witness_PushedByte_call :
    (start 8 [0x50, 0] [(0, 10), (7, 11)]).status = .running ∧ Fetches (start 8 [0x50, 0] [(0, 10), (7, 11)]) (.call 0) ∧
      (0#8).toNat = (0 : RegIdx).val ∧ (start 8 [0x50, 0] [(0, 10), (7, 11)]).pc + 2 ≤ 255 ∧
      (start 8 [0x50, 0] [(0, 10), (7, 11)]).sp.toNat ≠ 0 ∧
      pushAddr (start 8 [0x50, 0] [(0, 10), (7, 11)]) = (((start 8 [0x50, 0] [(0, 10), (7, 11)]).x 0).toNat : Int) :=
  ⟨by decide, ⟨_, rfl⟩, by decide, by decide, by decide, by decide⟩
theorem witness_EqualMemories : Memory.wf [(0, 1), (255, 2)] = true := by decide
theorem witness_Launch : ([130#8, 0, 8]).length ≤ 256 := by decide
theorem witness_ImageLines :
    (∀ c ∈ [' '] ++ ['\t'], c = ' ' ∨ c = '\t') ∧ '#' ∉ ['1', '0'] ∧ ['1', '0'].head?.any isBlank = false ∧
      ['1', '0'].getLast?.any isBlank = false ∧ (∀ c ∈ ['1', '0'], c = '0' ∨ c = '1') ∧ binaryValue ['1', '0'] < 256 :=
  ⟨by simp, by decide, by decide, by decide, by simp, by decide⟩
theorem witness_ImageLines_malformed :
    '#' ∉ ['2'] ∧ ['2'].head?.any isBlank = false ∧ ['2'].getLast?.any isBlank = false ∧ (∃ c ∈ ['2'], c ≠ '0' ∧ c ≠ '1') ∧
      256 ≤ binaryValue ['1', '0', '0', '0', '0', '0', '0', '0', '0'] :=
  ⟨by decide, by decide, by decide, ⟨'2', by simp⟩, by decide⟩
theorem witness_LoadError_malformed :
    noneMalformed [['1']] ∧ bytesIn [['1']] ≤ 256 ∧ readLine ['2'] = .malformed :=
  ⟨by intro l hl; obtain rfl : l = ['1'] := by simpa using hl
      decide, by decide, by decide⟩
theorem witness_LoadError_full :
    noneMalformed (List.replicate 256 ['1']) ∧ bytesIn (List.replicate 256 ['1']) = 256 ∧ ∃ v, readLine ['1'] = .byte v := by
  have h : readLine ['1'] = .byte 1 := by decide
  refine ⟨fun l hl => ?_, ?_, _, h⟩
  · obtain rfl := List.eq_of_mem_replicate hl
    simp [h]
  · unfold bytesIn
    rw [List.filter_replicate, h]
    exact List.length_replicate
theorem witness_Runs_ended : run 5 (start 0 [1]) = .ended ((start 0 [1]).setHalted.setPc 1) := by decide
theorem witness_Runs_budget : run 0 (start 0 [1]) = .budgetExhausted (start 0 [1]) := by decide
theorem witness_JumpToItself :
    (start 0 [0x54, 0]).status = .running ∧ Fetches (start 0 [0x54, 0]) (.jmp 0) ∧ (0#8).toNat = (0 : RegIdx).val ∧
      ((start 0 [0x54, 0]).x 0).toNat = (start 0 [0x54, 0]).pc :=
  ⟨by decide, ⟨_, rfl⟩, by decide, by decide⟩
/-- Spellings R91 and R92 allow: mixed case, `SP`, a hexadecimal literal in both cases, `;`, the `NOT Ra` shorthand. -/
theorem witness_SpellsStatement_ldi : SpellsStatement (.ldi 7 0xAB) "lDi SP , 0xaB".toList :=
  ⟨[], "lDi".toList, [' '], [' '], [' '], [], ["SP".toList, "0xaB".toList], nofun, by simp [Blanks], by simp [Blanks],
    by simp [Blanks], nofun, by decide, by decide,
    ⟨_, _, rfl, .inr ⟨by decide, rfl⟩,
      .inr (.inl ⟨"aB".toList, rfl, .more (.one (d := 10) (by decide) (.inl rfl)) (d := 11) (by decide) (.inr rfl)⟩)⟩, rfl⟩
theorem witness_SpellsStatement_not : SpellsStatement (.not 1 0) "Not r1".toList :=
  ⟨[], "Not".toList, [' '], [], [], [], ["r1".toList], nofun, by simp [Blanks], nofun, nofun, nofun, by decide, by decide,
    .inr ⟨rfl, _, rfl, .inl ⟨'r', '1', .inr rfl, rfl, rfl⟩⟩, rfl⟩
theorem witness_SpellsText : SpellsText [.ldi 7 0xAB, .not 1 0] "lDi SP , 0xaB;\nNot r1#; HLT".toList :=
  .more (.line (.more (.statement witness_SpellsStatement_ldi) (.empty (text := []) nofun)))
    (.commented (.statement witness_SpellsStatement_not) (comment := "; HLT".toList) (by decide))
theorem witness_Assembler : (Instr.not 7 255).wellFormed = true := by decide

end Sys2Proof.Tests
end

/-! # The family of 10_state: the invariant, the flag, the halted flag, the output stream, and memory as a value

Everything here goes through the two case lemmas of Laws/: `step_next_cases` (what a step can do) and `fetch_cases`. -/

namespace Sys2Proof.Machine

/-! ## What the fetch settles for the statements -/

/-- The instruction whose bytes stand at `pc` is the one the fetch reads. -/
theorem fetches_iff_fetch {s : State} {i : Instr} : Claims.Fetches s i ↔ fetch s = .ok i :=
  ⟨fun ⟨_, h⟩ => fetch_of_decode h, decode_of_fetch⟩

/-- An instruction that was fetched lies inside memory (R112, R114). -/
theorem fetch_ok_end_le {s : State} {i : Instr} (h : fetch s = .ok i) : s.pc + i.op.length ≤ 256 := by
  rcases fetch_cases s with ⟨-, h'⟩ | ⟨-, -, h'⟩ | ⟨_, -, -, -, h'⟩ | ⟨_, -, hl, h'⟩ <;> rw [h'] at h <;> cases h
  exact hl

theorem readBytes_congr {s u : State} (hm : u.mem = s.mem) (p n : Nat) : readBytes u p n = readBytes s p n := by
  induction n generalizing p with
  | zero => rfl
  | succ n ih => simp only [readBytes, memRead, State.byteAt, hm, ih]

/-- The fetch reads memory and `pc` only. -/
theorem fetch_congr {s u : State} (hm : u.mem = s.mem) (hp : u.pc = s.pc) : fetch u = fetch s := by
  simp only [fetch, memRead, State.byteAt, hm, hp, readBytes_congr hm]

/-! ## What an instruction that raises nothing writes, field by field -/

namespace Effect

variable {s t : State} {i : Instr}

/-- No instruction writes the fault status but by raising (R31). -/
theorem fault_eq (h : Effect s i t) : t.fault = s.fault := by
  cases h with
  | jeq | jne => split <;> rfl
  | _ => rfl

/-- CMP alone writes the flag (R29). -/
theorem flag_eq_or_cmp (h : Effect s i t) : t.flag = s.flag ∨ ∃ a b, i = .cmp a b := by
  cases h with
  | cmp => exact .inr ⟨_, _, rfl⟩
  | jeq | jne => exact .inl (by split <;> rfl)
  | _ => exact .inl rfl

/-- HLT sets the halted flag, and every other instruction keeps it (R30). -/
theorem halted_cases (h : Effect s i t) : (i = .hlt ∧ t.halted = true) ∨ (i ≠ .hlt ∧ t.halted = s.halted) := by
  cases h with
  | hlt => exact .inl ⟨rfl, rfl⟩
  | jeq | jne => exact .inr ⟨nofun, by split <;> rfl⟩
  | register ho => exact .inr ⟨(by rintro rfl; cases ho), rfl⟩
  | _ => exact .inr ⟨nofun, rfl⟩

/-- PRN appends its line, and every other instruction keeps the output (R41, R181). -/
theorem out_eq_or_prn (h : Effect s i t) :
    t.out = s.out ∨
    ∃ (a : Byte) (r : RegIdx), i = .prn a ∧ a.toNat = r.val ∧ t.out = s.out ++ [prnLine (s.x r)] := by
  cases h with
  | prn hr => exact .inr ⟨_, _, rfl, hr, rfl⟩
  | jeq | jne => exact .inl (by split <;> rfl)
  | _ => exact .inl rfl

/-- A push stores inside memory, and nothing else writes it (R191). -/
theorem memOk (h : Effect s i t) (hs : s.MemOk) : t.MemOk := by
  have hstore {v w : Byte} (hpos : 0 < s.sp.toNat) : ((s.setSp v).setByte (s.sp.toNat - 1) w).MemOk :=
    State.MemOk.setByte (s := s.setSp v) hs (by have := s.sp.isLt; omega) w
  cases h with
  | push _ hpos => exact hstore hpos
  | call _ _ hpos => exact hstore hpos
  | jeq | jne => split <;> exact hs
  | _ => exact hs

/-- A register's value is an address of memory, and the address after a fetched instruction is at most its end (R28,
R117). -/
theorem pc_le (h : Effect s i t) (hi : s.pc + i.op.length ≤ 256) : t.pc ≤ 256 := by
  have hbyte (v : Byte) : v.toNat ≤ 256 := v.isLt.le
  cases h with
  | ret | call | jmp => exact hbyte _
  | jeq =>
    split
    · exact hbyte _
    · exact hi
  | jne =>
    split
    · exact hi
    · exact hbyte _
  | _ => exact hi

end Effect

/-! ## Which fault records a step makes -/

/-- An instruction with a register field has a format with one (R82). -/
theorem format_ne_f0_of_regFields {i : Instr} (h : i.regFields ≠ []) : i.op.format ≠ .f0 := by
  cases i with
  | hlt | ret => exact absurd rfl h
  | _ => nofun

/-- HLT raises nothing (R210). -/
theorem not_raises_hlt {s : State} {e : Raise} : ¬ Raises s .hlt e := by
  rintro (⟨hf, -, -⟩)
  simp [Instr.regFields] at hf

/-- The record of what an instruction raises is one R240 and R243 allow. -/
theorem Raises.legal {s : State} {i : Instr} {e : Raise} (h : Raises s i e) (p : Nat) :
    FaultRecord.Legal ⟨e.kind, p, some i.op.code, e.detail⟩ := by
  have hbounds {d : Int} (hd : outside d = true) : FaultRecord.Legal ⟨.outOfBounds, p, some i.op.code, d⟩ :=
    ⟨hd, by rintro _ ⟨⟩; simp⟩
  cases h with
  | @register _ _ _ v hf _ h8 =>
    have := v.isLt
    exact ⟨by simp only; omega, _, rfl, format_ne_f0_of_regFields (by simp [hf])⟩
  | @divisor _ _ j =>
    have : j.val < 8 := j.isLt
    exact ⟨by simp only; omega, rfl⟩
  | popEmpty => exact ⟨rfl, .inl rfl⟩
  | retEmpty => exact ⟨rfl, .inr rfl⟩
  | popTop | retTop | pushZero | callZero => exact hbounds rfl
  | callReturn => exact hbounds (outside_iff.mpr (by simp only; omega))

/-- The record of a fault of the fetch is one R240 and R243 allow. -/
theorem fetch_error_legal {s : State} {f : FetchFault} (h : fetch s = .error f) (p : Nat) :
    FaultRecord.Legal ⟨f.raised.kind, p, f.opcode, f.raised.detail⟩ := by
  rcases fetch_cases s with ⟨hp, h'⟩ | ⟨-, hc, h'⟩ | ⟨o, -, -, -, h'⟩ | ⟨_, -, -, h'⟩ <;> rw [h'] at h <;> cases h
  · exact ⟨outside_iff.mpr (by simp only; omega), nofun⟩
  · exact ⟨_, rfl, rfl, hc⟩
  · exact ⟨rfl, by rintro _ ⟨⟩; simp⟩

/-! ## The invariant -/

/-- A Running state that records a legal fault keeps the invariant: nothing else of it changes (R242). -/
theorem State.Inv.raise {s : State} (hs : s.Inv) (hh : s.halted = false) {op : Option Byte} {e : Raise}
    (hl : FaultRecord.Legal ⟨e.kind, s.pc, op, e.detail⟩) : (s.raise op e).Inv where
  memCanonical := hs.memCanonical
  memInRange := hs.memInRange
  pcInRange := hs.pcInRange
  statusExclusive := by simp [hh]
  faultLegal := by rintro _ ⟨⟩; exact ⟨rfl, hl⟩
  linesLegal := hs.linesLegal

/-- A Running state keeps the invariant when the instruction fetched there has its effect. -/
theorem State.Inv.effect {s t : State} (hs : s.Inv) (hf : s.fault = none) {i : Instr} (hi : fetch s = .ok i)
    (h : Effect s i t) : t.Inv := by
  have hmem := h.memOk ⟨hs.memCanonical, hs.memInRange⟩
  have hfault : t.fault = none := h.fault_eq.trans hf
  refine ⟨hmem.1, hmem.2, h.pc_le (fetch_ok_end_le hi), by simp [hfault], by simp [hfault], ?_⟩
  intro l hl
  rcases h.out_eq_or_prn with ho | ⟨_, r, -, -, ho⟩ <;> rw [ho] at hl
  · exact hs.linesLegal l hl
  · rcases List.mem_append.mp hl with hl | hl
    · exact hs.linesLegal l hl
    · exact ⟨_, List.mem_singleton.mp hl⟩

/-- Every step keeps the invariant (R28, R32). -/
theorem step_keeps_inv {s t : State} (hs : s.Inv) (h : step s = .next t) : t.Inv := by
  obtain ⟨hrun, hcases⟩ := step_next_cases h
  obtain ⟨hh, hf⟩ := State.status_running.mp hrun
  rcases hcases with ⟨f, he, rfl⟩ | ⟨i, hi, ⟨e, he, rfl⟩ | heff⟩
  · exact hs.raise hh (fetch_error_legal he s.pc)
  · exact hs.raise hh (he.legal s.pc)
  · exact hs.effect hf hi heff

theorem reset_inv : State.reset.Inv :=
  ⟨reset_memOk.1, reset_memOk.2, Nat.zero_le _, nofun, nofun, nofun⟩

/-- The loader writes memory and nothing else (R271). -/
theorem loadLines_eq_with_mem {s t : State} {addr line : Nat} {ls : List (List Char)}
    (h : loadLines s addr line ls = .ok t) : t = { s with mem := t.mem } := by
  induction ls generalizing s addr line with
  | nil => cases h; rfl
  | cons l ls ih =>
    cases hl : readLine l with
    | skipped => rw [loadLines_skipped _ _ _ _ hl] at h; exact ih h
    | malformed => rw [loadLines_malformed _ _ _ _ hl] at h; cases h
    | byte v =>
      by_cases ha : addr < 256
      · rw [loadLines_byte _ _ _ hl ha] at h; exact (ih h :)
      · rw [loadLines_full _ _ _ hl (by omega)] at h; cases h

/-- The launch state of any image that loads meets the invariant (R278). -/
theorem launch_inv {text : List Char} {s : State} (h : launch text = .ok s) : s.Inv := by
  have hmem : s.MemOk := reset_memOk.loadLines h
  rw [loadLines_eq_with_mem h]
  exact { reset_inv with memCanonical := hmem.1, memInRange := hmem.2 }

/-- What every step keeps holds of every state that steps reach. -/
theorem Reaches.preserves {P : State → Prop} (hstep : ∀ s t, P s → step s = .next t → P t) {s t : State}
    (h : Reaches s t) (hs : P s) : P t := by
  obtain ⟨n, h⟩ := h
  induction n generalizing s with
  | zero => exact h ▸ hs
  | succ n ih =>
    obtain ⟨u, hu, h⟩ := h
    exact ih (hstep s u hs hu) h

/-! ## Maps of states that execution commutes with

`Unread g` says of a map `g` of states that no operation of an instruction, but those on the flag, tells `g s` from `s`. One
commuting diagram, `exec_unread`, then serves both noninterference statements: there `g` writes the flag, or puts lines
before the output. -/

/-- `g` keeps what an instruction reads, the flag apart, and commutes with what it writes, the flag apart. -/
structure Unread (g : State → State) : Prop where
  x (s : State) (i : RegIdx) : (g s).x i = s.x i
  pc (s : State) : (g s).pc = s.pc
  byteAt (s : State) (a : Nat) : (g s).byteAt a = s.byteAt a
  setX (s : State) (i : RegIdx) (v : Byte) : (g s).setX i v = g (s.setX i v)
  setPc (s : State) (p : Nat) : (g s).setPc p = g (s.setPc p)
  setHalted (s : State) : (g s).setHalted = g s.setHalted
  setByte (s : State) (a : Nat) (v : Byte) : (g s).setByte a v = g (s.setByte a v)
  emit (s : State) (l : String) : (g s).emit l = g (s.emit l)
  raise (s : State) (op : Option Byte) (e : Raise) : (g s).raise op e = g (s.raise op e)

/-- `g` keeps the flag, and commutes with writing it. -/
structure FlagUnread (g : State → State) : Prop where
  flag (s : State) : (g s).flag = s.flag
  setFlag (s : State) (b : Bool) : (g s).setFlag b = g (s.setFlag b)

/-- The instructions that read or write the flag (R29). -/
def usesFlag : Instr → Bool
  | .cmp _ _ | .jeq _ | .jne _ => true
  | _ => false

/-- A map of states, on what a step answers. -/
def mapNext (g : State → State) : Host.Outcome State Fault Refusal → Host.Outcome State Fault Refusal
  | .next s => .next (g s)
  | .fault r => .fault r
  | .refused r => .refused r

namespace Unread

variable {g : State → State} (hg : Unread g) (s : State)

include hg

theorem sp : (g s).sp = s.sp := hg.x s _

theorem nextPc (op : Op) : Machine.nextPc op (g s) = Machine.nextPc op s := by
  simp only [Machine.nextPc, hg.pc]

theorem advance (op : Op) : (g s).advance op = g (s.advance op) := by
  simp only [State.advance, hg.nextPc, hg.setPc]

theorem push (v : Byte) : Machine.push (g s) v = (Machine.push s v).map g := by
  by_cases h : s.sp.toNat = 0
  · rw [push_at_zero s v h, push_at_zero (g s) v (by rw [hg.sp, h])]; rfl
  · have hpos : 0 < s.sp.toNat := Nat.pos_of_ne_zero h
    rw [push_stores s v hpos, push_stores (g s) v (by rwa [hg.sp]), hg.sp]
    simp only [State.setSp, hg.setX, hg.setByte, Except.map]

theorem pop : Machine.pop (g s) = Machine.pop s := by
  rcases pop_cases s with ⟨h, hp⟩ | ⟨h, hp⟩ | ⟨h, ht, hp⟩ <;> rw [hp]
  · exact pop_empty _ (by rw [hg.sp, h])
  · exact pop_at_top _ (by rw [hg.sp, h])
  · rw [pop_reads _ (by rwa [hg.sp]) (by rwa [hg.sp]), hg.sp, hg.byteAt]

theorem commit (op : Op) (r : Except Raise State) :
    Machine.commit op (g s) (r.map g) = mapNext g (Machine.commit op s r) := by
  cases r with
  | ok t => rfl
  | error e => simp only [Except.map, commit_error, hg.raise, mapNext]

/-- The validation of a register field reads no state, so a diagram for the execute phase is one for the instruction. -/
theorem commit_withReg (op : Op) (a : Byte) {f f' : RegIdx → Except Raise State} (h : ∀ i, f' i = (f i).map g) :
    Machine.commit op (g s) (withReg a f') = mapNext g (Machine.commit op s (withReg a f)) := by
  rw [← hg.commit]
  rcases regOperand_cases a with ⟨i, hi, -⟩ | ⟨h8, -⟩
  · rw [withReg_of_eq hi, withReg_of_eq hi, h i]
  · rw [withReg_invalid h8, withReg_invalid h8]; rfl

/-- The ALU reads two registers and writes one, or the flag (R140). -/
theorem aluApply (f : AluOp) (hf : f = .cmp → FlagUnread g) (i j : RegIdx) :
    Machine.aluApply f i j (g s) = (Machine.aluApply f i j s).map g := by
  cases f with
  | cmp => simp only [Machine.aluApply, hg.x, (hf rfl).setFlag, Except.map]
  | div => by_cases h : s.x j = 0#8 <;> simp [Machine.aluApply, hg.x, h, hg.setX, Except.map]
  | _ => simp only [Machine.aluApply, hg.x, hg.setX, Except.map]

theorem aluOne (op : Op) (f : AluOp) (hf : f = .cmp → FlagUnread g) (a : Byte) :
    Machine.aluOne op f a (g s) = mapNext g (Machine.aluOne op f a s) := by
  refine hg.commit_withReg s op a fun i => ?_
  rw [hg.aluApply s f hf]
  cases Machine.aluApply f i i s <;> simp [Except.map, hg.advance]

theorem aluTwo (op : Op) (f : AluOp) (hf : f = .cmp → FlagUnread g) (a b : Byte) :
    Machine.aluTwo op f a b (g s) = mapNext g (Machine.aluTwo op f a b s) := by
  refine hg.commit_withReg s op a fun i => ?_
  rcases regOperand_cases b with ⟨j, hj, -⟩ | ⟨h8, -⟩
  · simp only [withReg_of_eq hj]
    rw [hg.aluApply s f hf]
    cases Machine.aluApply f i j s <;> simp [Except.map, hg.advance]
  · rw [withReg_invalid h8, withReg_invalid h8]; rfl

end Unread

/-- Executing an instruction commutes with every map of states that its operations do not tell from the identity. -/
theorem exec_unread {g : State → State} (hg : Unread g) (i : Instr) (hf : usesFlag i = true → FlagUnread g) (s : State) :
    exec i (g s) = mapNext g (exec i s) := by
  cases i with
  | hlt => simp only [exec, execHlt, commit_ok, mapNext, hg.setHalted, hg.advance]
  | ret =>
    simp only [exec, execRet, hg.pop, ← hg.commit]
    cases pop s <;> simp [Except.map, State.setSp, hg.setX, hg.setPc]
  | push a =>
    refine hg.commit_withReg s .push a fun i => ?_
    rw [hg.x, hg.push]
    cases push s (s.x i) <;> simp [Except.map, hg.advance]
  | pop a =>
    refine hg.commit_withReg s .pop a fun i => ?_
    rw [hg.pop]
    cases pop s <;> simp [Except.map, State.setSp, hg.setX, hg.advance]
  | prn a => exact hg.commit_withReg s .prn a fun i => by simp only [hg.x, hg.emit, hg.advance, Except.map]
  | call a =>
    refine hg.commit_withReg s .call a fun i => ?_
    simp only [hg.nextPc, hg.x, hg.push]
    by_cases hr : nextPc .call s > 255
    · rw [if_pos hr, if_pos hr]; rfl
    · rw [if_neg hr, if_neg hr]
      cases push s _ <;> simp [Except.map, hg.setPc]
  | jmp a => exact hg.commit_withReg s .jmp a fun i => by simp only [hg.x, hg.setPc, Except.map]
  | jeq a =>
    refine hg.commit_withReg s .jeq a fun i => ?_
    rw [(hf rfl).flag, hg.x, hg.setPc, hg.advance, ← apply_ite g]; rfl
  | jne a =>
    refine hg.commit_withReg s .jne a fun i => ?_
    rw [(hf rfl).flag, hg.x, hg.setPc, hg.advance, ← apply_ite g]; rfl
  | ldi a v => exact hg.commit_withReg s .ldi a fun i => by simp only [hg.setX, hg.advance, Except.map]
  | not a u => exact hg.aluOne s .not .not nofun a
  | cmp a b => exact hg.aluTwo s .cmp .cmp (fun _ => hf rfl) a b
  | add a b => exact hg.aluTwo s .add .add nofun a b
  | sub a b => exact hg.aluTwo s .sub .sub nofun a b
  | mul a b => exact hg.aluTwo s .mul .mul nofun a b
  | div a b => exact hg.aluTwo s .div .div nofun a b
  | and a b => exact hg.aluTwo s .and .and nofun a b
  | or a b => exact hg.aluTwo s .or .or nofun a b
  | xor a b => exact hg.aluTwo s .xor .xor nofun a b
  | shl a b => exact hg.aluTwo s .shl .shl nofun a b
  | shr a b => exact hg.aluTwo s .shr .shr nofun a b

/-! ## The flag is read by branches only -/

theorem unread_setFlag (c : Bool) : Unread (·.setFlag c) where
  x _ _ := rfl
  pc _ := rfl
  byteAt _ _ := rfl
  setX _ _ _ := rfl
  setPc _ _ := rfl
  setHalted _ := rfl
  setByte _ _ _ := rfl
  emit _ _ := rfl
  raise _ _ _ := rfl

/-- CMP compares the same two registers whatever the flag was, and what it raises does not depend on it either (R154). -/
theorem exec_cmp_setFlag (a b : Byte) (s : State) (c : Bool) :
    ∃ t d, exec (.cmp a b) s = .next t ∧ exec (.cmp a b) (s.setFlag c) = .next (t.setFlag d) := by
  simp only [exec_cmp]
  rcases regOperand_cases a with ⟨i, hi, -⟩ | ⟨ha, -⟩
  · rcases regOperand_cases b with ⟨j, hj, -⟩ | ⟨hb, -⟩
    · exact ⟨_, compareFlag (s.x i) (s.x j), aluTwo_of_eq .cmp .cmp s hi hj rfl,
        (aluTwo_of_eq .cmp .cmp (s.setFlag c) hi hj rfl :)⟩
    · exact ⟨_, c, aluTwo_second_invalid _ _ _ hi hb, aluTwo_second_invalid _ _ _ hi hb⟩
  · exact ⟨_, c, aluTwo_first_invalid _ _ _ ha, aluTwo_first_invalid _ _ _ ha⟩

/-- An instruction that is no branch on the flag answers the same state whatever the flag is, up to the flag (R29). -/
theorem exec_setFlag {i : Instr} (hi : ∀ a, i ≠ .jeq a ∧ i ≠ .jne a) {s t : State} (h : exec i s = .next t) (c : Bool) :
    ∃ d, exec i (s.setFlag c) = .next (t.setFlag d) := by
  by_cases hu : usesFlag i = true
  · cases i with
    | cmp a b =>
      obtain ⟨t', d, ht, hd⟩ := exec_cmp_setFlag a b s c
      obtain rfl : t' = t := by rw [h] at ht; injection ht with ht; exact ht.symm
      exact ⟨d, hd⟩
    | jeq a => exact absurd rfl (hi a).1
    | jne a => exact absurd rfl (hi a).2
    | _ => cases hu
  · exact ⟨c, by rw [exec_unread (unread_setFlag c) i (absurd · hu), h]; rfl⟩

/-! ## The output stream is never read -/

/-- The same state with lines put before its output. -/
def State.withEarlier (earlier : List String) (s : State) : State := { s with out := earlier ++ s.out }

theorem unread_withEarlier (earlier : List String) : Unread (State.withEarlier earlier) where
  x _ _ := rfl
  pc _ := rfl
  byteAt _ _ := rfl
  setX _ _ _ := rfl
  setPc _ _ := rfl
  setHalted _ := rfl
  setByte _ _ _ := rfl
  emit s l := by simp [State.withEarlier, State.emit]
  raise _ _ _ := rfl

theorem flagUnread_withEarlier (earlier : List String) : FlagUnread (State.withEarlier earlier) :=
  ⟨fun _ => rfl, fun _ _ => rfl⟩

/-- A step commutes with putting lines before the output (R41). -/
theorem step_withEarlier (earlier : List String) (s : State) :
    step (s.withEarlier earlier) = mapNext (State.withEarlier earlier) (step s) := by
  have hfetch : fetch (s.withEarlier earlier) = fetch s := fetch_congr rfl rfl
  cases hs : s.status with
  | halted =>
    have hh := State.status_halted.mp hs
    rw [step_halted hh, step_halted (s := s.withEarlier earlier) hh]; rfl
  | faulted =>
    obtain ⟨hh, r, hr⟩ := State.status_faulted.mp hs
    rw [step_faulted hh hr, step_faulted (s := s.withEarlier earlier) hh hr]; rfl
  | running =>
    have hs' : (s.withEarlier earlier).status = .running := hs
    cases hf : fetch s with
    | error f => rw [step_fetch_fault hs hf, step_fetch_fault hs' (hfetch.trans hf)]; rfl
    | ok i =>
      rw [step_runs hs hf, step_runs hs' (hfetch.trans hf)]
      exact exec_unread (unread_withEarlier earlier) i (fun _ => flagUnread_withEarlier earlier) s

theorem mapNext_eq_next {g : State → State} {o : Host.Outcome State Fault Refusal} {t : State}
    (h : mapNext g o = .next t) : ∃ u, o = .next u ∧ t = g u := by
  cases o with
  | next u => injection h with h; exact ⟨u, rfl, h.symm⟩
  | fault | refused => cases h

/-! ## Memory as a value -/

/-- An address below every listed one reads as the reset value. -/
theorem Memory.get_of_forall_lt {m : Memory} {k : Nat} (h : ∀ c ∈ m, k < c.1) : m.get k = Config.unlisted := by
  induction m with
  | nil => rfl
  | cons c m ih =>
    obtain ⟨hc, hm⟩ := List.forall_mem_cons.mp h
    simp only [Memory.get, if_neg (Nat.ne_of_gt hc), ih hm]

/-- The lowest listed address reads as its listed byte. -/
theorem Memory.get_cons_self (a : Nat) (b : Byte) (m : Memory) : Memory.get ((a, b) :: m) a = b := by
  simp [Memory.get]

theorem Memory.get_cons_of_ne {a k : Nat} (b : Byte) (m : Memory) (h : a ≠ k) : Memory.get ((a, b) :: m) k = m.get k := by
  simp [Memory.get, h]

/-- The address a canonical memory lists first is not below the first one of another that reads alike. -/
theorem Memory.head_le_of_get_eq {a a' : Nat} {b b' : Byte} {m n : Memory} (hm : Memory.wf ((a, b) :: m) = true)
    (hn : Memory.wf ((a', b') :: n) = true) (h : Memory.get ((a, b) :: m) a = Memory.get ((a', b') :: n) a) : a' ≤ a := by
  obtain ⟨hb, -, -⟩ := Memory.wf_cons.mp hm
  obtain ⟨-, hlt, -⟩ := Memory.wf_cons.mp hn
  by_contra hlt'
  have hbelow : ∀ c ∈ (a', b') :: n, a < c.1 :=
    List.forall_mem_cons.mpr ⟨by simp only; omega, fun c hc => Nat.lt_trans (by omega) (hlt c hc)⟩
  rw [Memory.get_cons_self, Memory.get_of_forall_lt hbelow] at h
  exact hb h

/-- A canonical memory that reads as the reset value everywhere lists nothing. -/
theorem Memory.eq_nil_of_get {m : Memory} (hm : m.wf = true) (h : ∀ k, m.get k = Config.unlisted) : m = [] := by
  cases m with
  | nil => rfl
  | cons c m => exact absurd ((Memory.get_cons_self c.1 c.2 m).symm.trans (h c.1)) (Memory.wf_cons.mp hm).1

/-- The canonical form is one list for each content of memory. -/
theorem Memory.eq_of_get_eq {m n : Memory} (hm : m.wf = true) (hn : n.wf = true) (h : ∀ k, m.get k = n.get k) : m = n := by
  induction m generalizing n with
  | nil => exact (Memory.eq_nil_of_get hn fun k => (h k).symm).symm
  | cons c m ih =>
    cases n with
    | nil => exact Memory.eq_nil_of_get hm h
    | cons d n =>
      obtain ⟨a, b⟩ := c
      obtain ⟨a', b'⟩ := d
      obtain rfl : a = a' :=
        Nat.le_antisymm (Memory.head_le_of_get_eq hn hm (h a').symm) (Memory.head_le_of_get_eq hm hn (h a))
      obtain rfl : b = b' := by simpa only [Memory.get_cons_self] using h a
      obtain ⟨-, hlt, hwm⟩ := Memory.wf_cons.mp hm
      obtain ⟨-, hlt', hwn⟩ := Memory.wf_cons.mp hn
      refine congrArg _ (ih hwm hwn fun k => ?_)
      by_cases hk : a = k
      · subst hk; rw [Memory.get_of_forall_lt hlt, Memory.get_of_forall_lt hlt']
      · simpa only [Memory.get_cons_of_ne _ _ hk] using h k

/-! ## The obligations -/

/-- Settles O7: a step raises a legal fault and changes nothing else, or has an effect that keeps each clause. -/
theorem everyStepKeepsTheInvariant : Obligations.EveryStepKeepsTheInvariant := fun _ _ => step_keeps_inv

/-- Settles O8: the launch state meets the invariant, and every step keeps it. -/
theorem everyStateOfEveryRunMeetsTheInvariant : Obligations.EveryStateOfEveryRunMeetsTheInvariant :=
  fun _ _ _ hlaunch hreach => hreach.preserves (fun _ _ => step_keeps_inv) (launch_inv hlaunch)

/-- Settles O16: of all effects only CMP's writes the flag, a fault writes its record alone, and writing the flag commutes
with every instruction but CMP and the two branches. -/
theorem onlyCmpWritesTheFlagAndOnlyBranchesReadIt : Obligations.OnlyCmpWritesTheFlagAndOnlyBranchesReadIt := by
  refine ⟨rfl, fun s t h hne => ?_, fun s t h hfault => ?_, fun i s t c hi h => ?_⟩
  · obtain ⟨-, ⟨f, -, rfl⟩ | ⟨i, hi, ⟨e, -, rfl⟩ | heff⟩⟩ := step_next_cases h
    · exact absurd rfl hne
    · exact absurd rfl hne
    · obtain ⟨a, b, rfl⟩ := heff.flag_eq_or_cmp.resolve_left hne
      exact ⟨a, b, fetches_iff_fetch.mpr hi⟩
  · obtain ⟨hrun, ⟨f, -, rfl⟩ | ⟨i, -, ⟨e, -, rfl⟩ | heff⟩⟩ := step_next_cases h
    · rfl
    · rfl
    · exact absurd (heff.fault_eq.trans (State.status_running.mp hrun).2) hfault
  · obtain ⟨d, hd⟩ := exec_setFlag hi h c
    exact ⟨_, hd, rfl⟩

/-- Settles O17: a step starts not halted, a fault leaves it so, and of all effects only HLT's sets the flag. -/
theorem exactlyHltHalts : Obligations.ExactlyHltHalts := by
  refine ⟨rfl, fun s t h => ?_, fun s t hh ⟨n, hn⟩ => ?_⟩
  · obtain ⟨hrun, hcases⟩ := step_next_cases h
    obtain ⟨hh, -⟩ := State.status_running.mp hrun
    rw [fetches_iff_fetch]
    rcases hcases with ⟨f, hf, rfl⟩ | ⟨i, hi, ⟨e, he, rfl⟩ | heff⟩
    · simp [hf, hh]
    · have : i ≠ .hlt := by rintro rfl; exact not_raises_hlt he
      simp [hi, hh, this]
    · rcases heff.halted_cases with ⟨rfl, ht⟩ | ⟨hne, ht⟩
      · simp [hi, ht]
      · simp [hi, ht, hh, hne]
  · cases n with
    | zero => exact hn.symm
    | succ n =>
      obtain ⟨u, hu, -⟩ := hn
      rw [step_halted hh] at hu
      cases hu

/-- Settles O19: a fault writes its record alone, and of all effects only PRN's appends. -/
theorem onlyPrnEmitsOneLine : Obligations.OnlyPrnEmitsOneLine := by
  intro s t h
  obtain ⟨-, ⟨f, -, rfl⟩ | ⟨i, hi, ⟨e, -, rfl⟩ | heff⟩⟩ := step_next_cases h
  · exact .inl rfl
  · exact .inl rfl
  · refine heff.out_eq_or_prn.imp id ?_
    rintro ⟨a, r, rfl, ha, ho⟩
    exact ⟨a, r, fetches_iff_fetch.mpr hi, ha, ho⟩

/-- Settles O20: both states are the one with no output yet, with different lines put before it. -/
theorem outputStreamIsNeverRead : Obligations.OutputStreamIsNeverRead := by
  intro s t earlier h
  obtain ⟨s₀, hs⟩ : ∃ s₀ : State, ∀ lines, { s with out := lines } = s₀.withEarlier lines :=
    ⟨{ s with out := [] }, fun lines => by simp [State.withEarlier]⟩
  rw [show s = s₀.withEarlier s.out from hs s.out, step_withEarlier] at h
  obtain ⟨t₀, ht₀, rfl⟩ := mapNext_eq_next h
  refine ⟨t₀.out, rfl, ?_⟩
  rw [hs, step_withEarlier, ht₀]
  rfl

/-- Settles O51: the first listed cells of the two agree, and so do the rests. -/
theorem equalMemoriesAreOneList : Obligations.EqualMemoriesAreOneList := fun _ _ => Memory.eq_of_get_eq

/-- Settles O6: each clause holds of the spec's reset values. -/
theorem resetMeetsTheInvariant : Obligations.ResetMeetsTheInvariant := reset_inv

end Sys2Proof.Machine

/-! # The family of 20_memory: who writes memory, the memory interface, and code written by a push

The statement on pushed code is two facts put together: what the bytes at `pc` decide of a step (`stepsOn_bytesFrom`, for
every Running state), and what memory holds after a push (`State.byteAt_pushed`). -/

namespace Sys2Proof

open Sys2Proof.Machine

/-- Too few bytes for the operands that the opcode has (R114). -/
theorem decode_truncated {o : Op} {rest : List Byte} (h : rest.length < o.operands) :
    decode (o.code :: rest) = .error (.truncated o) := by
  have hle := o.operands_le
  simp only [decode, Op.ofCode_code]
  split
  · next h0 => omega
  · next b rest h1 => rw [h1] at h; simp at h
  · next b b2 rest h2 => rw [h2] at h; simp at h
  · rfl

end Sys2Proof

namespace Sys2Proof.Machine

open Sys2Proof.Claims

/-! ## A store of one byte -/

/-- The state after a push of `v` from a stack pointer above 0 (R191), before the instruction writes `pc`. -/
def State.pushed (s : State) (v : Byte) : State :=
  (s.setSp (BitVec.ofNat 8 (s.sp.toNat - 1))).setByte (s.sp.toNat - 1) v

theorem push_eq_pushed (s : State) (v : Byte) (h : 0 < s.sp.toNat) : push s v = .ok (s.pushed v) := push_stores s v h

/-- A push writes one byte, at the address the push stores to (R191). -/
theorem State.byteAt_pushed {s : State} (v : Byte) (h : 0 < s.sp.toNat) (k : Nat) :
    (s.pushed v).byteAt k = if (k : Int) = pushAddr s then v else s.byteAt k := by
  simp only [State.pushed, State.byteAt_setByte, State.byteAt_setSp, pushAddr_eq s h, Nat.cast_inj]

/-- What changes a byte is a PUSH or a CALL, and the byte is the one its push stores (R50, R53). -/
theorem Effect.pushes_of_byteAt_ne {s t : State} {i : Instr} (h : Effect s i t) {k : Nat}
    (hk : t.byteAt k ≠ s.byteAt k) : (k : Int) = pushAddr s ∧ ∃ a, i = .push a ∨ i = .call a := by
  have hstore {v : Byte} (hpos : 0 < s.sp.toNat) (hv : (s.pushed v).byteAt k ≠ s.byteAt k) : (k : Int) = pushAddr s := by
    by_contra hne
    exact hv (by rw [State.byteAt_pushed v hpos, if_neg hne])
  cases h with
  | push _ hpos => exact ⟨hstore hpos hk, _, .inl rfl⟩
  | call _ _ hpos => exact ⟨hstore hpos hk, _, .inr rfl⟩
  | jeq | jne => exact absurd (by split <;> rfl) hk
  | _ => exact absurd rfl hk

/-! ## The bytes at `pc` decide the step -/

theorem bytesFrom_past_end (s : State) {p : Nat} (h : 256 ≤ p) : s.bytesFrom p = [] := by
  rw [bytesFrom_eq, if_neg (by omega)]

theorem bytesFrom_inside (s : State) {p : Nat} (h : p < 256) : s.bytesFrom p = s.byteAt p :: s.bytesFrom (p + 1) := by
  rw [bytesFrom_eq, if_pos h]

theorem bytesFrom_length (s : State) (p : Nat) : (s.bytesFrom p).length = 256 - p := by
  simp [State.bytesFrom, memSize_eq]

/-- In a Running state the decoding of the bytes at `pc` decides the step (R110, R112 to R114). -/
theorem stepsOn_bytesFrom {t : State} (hrun : t.status = .running) : StepsOn t (t.bytesFrom t.pc) := by
  rcases fetch_cases t with ⟨hp, hf⟩ | ⟨hp, hc, hf⟩ | ⟨o, hp, hc, hl, hf⟩ | ⟨i, -, -, hf⟩
  · have hstep := step_fetch_fault hrun hf
    rw [bytesFrom_past_end t hp]
    exact ⟨nofun, fun _ => hstep, nofun, nofun⟩
  · have hstep := step_fetch_fault hrun hf
    have hd : decode (t.bytesFrom t.pc) = .error (.illegal (t.byteAt t.pc)) := by
      rw [bytesFrom_inside t hp, decode_illegal hc]
    simp only [StepsOn, hd]
    exact ⟨nofun, nofun, by rintro _ ⟨⟩; exact hstep, nofun⟩
  · have hstep := step_fetch_fault hrun hf
    have hshort : (t.bytesFrom (t.pc + 1)).length < o.operands := by
      rw [bytesFrom_length]; unfold Op.length at hl; omega
    have hd : decode (t.bytesFrom t.pc) = .error (.truncated o) := by
      rw [bytesFrom_inside t hp, hc, decode_truncated hshort]
    simp only [StepsOn, hd]
    exact ⟨nofun, nofun, nofun, by rintro _ ⟨⟩; exact hstep⟩
  · obtain ⟨rest, hd⟩ := decode_of_fetch hf
    simp only [StepsOn, hd]
    exact ⟨by rintro _ _ ⟨⟩; exact step_runs hrun hf, nofun, nofun, nofun⟩

/-! ## The next fetch after a push -/

/-- The byte in its place is the first one read there, and those behind it are as they were. -/
theorem bytesWith_self (s : State) (v : Byte) {p : Nat} (h : p < 256) :
    bytesWith s p v p = v :: s.bytesFrom (p + 1) := by
  unfold bytesWith State.bytesFrom
  rw [memSize_eq, show 256 - p = (256 - (p + 1)) + 1 by omega, List.range'_succ, List.map_cons, if_pos rfl]
  refine congrArg (v :: ·) (List.map_congr_left fun k hk => if_neg ?_)
  have := (List.mem_range'_1.mp hk).1
  omega

theorem pushAddr_lt (s : State) : pushAddr s < 256 := by
  have := s.sp.isLt
  unfold pushAddr
  omega

/-- The bytes the next fetch reads after a push, wherever the instruction sends `pc`. -/
theorem bytesFrom_pushed {s : State} (v : Byte) (h : 0 < s.sp.toNat) (p : Nat) :
    (s.pushed v).bytesFrom p = bytesWith s (pushAddr s) v p :=
  List.map_congr_left fun k _ => State.byteAt_pushed v h k

/-- A push to the address the next fetch reads puts the pushed byte before the bytes that were behind it (R281). -/
theorem bytesFrom_pushed_self {s : State} (v : Byte) (h : 0 < s.sp.toNat) {p : Nat} (hp : pushAddr s = p) :
    (s.pushed v).bytesFrom p = v :: s.bytesFrom (p + 1) := by
  have hlt := pushAddr_lt s
  rw [bytesFrom_pushed v h, hp, bytesWith_self s v (by omega)]

/-- After a push that continues at `p`, the step is decided by memory with the pushed byte in its place (R64, R281). -/
theorem stepsOn_pushed {s : State} (v : Byte) (hrun : s.status = .running) (h : 0 < s.sp.toNat) (p : Nat) :
    StepsOn ((s.pushed v).setPc p) (bytesWith s (pushAddr s) v p) ∧
    (pushAddr s = p → StepsOn ((s.pushed v).setPc p) (v :: s.bytesFrom (p + 1))) := by
  have hstep : StepsOn ((s.pushed v).setPc p) ((s.pushed v).bytesFrom p) :=
    stepsOn_bytesFrom (t := (s.pushed v).setPc p) hrun
  exact ⟨bytesFrom_pushed v h p ▸ hstep, fun hp => bytesFrom_pushed_self v h hp ▸ hstep⟩

/-- PUSH from a stack pointer above 0 (R193). -/
theorem exec_push_eq_pushed {s : State} {a : Byte} {i : RegIdx} (hi : a.toNat = i.val) (h : 0 < s.sp.toNat) :
    exec (.push a) s = .next ((s.pushed (s.x i)).setPc (s.pc + 2)) := by
  simp only [exec, execPush, withReg_of_eq hi, push_eq_pushed s _ h, commit_ok]
  rfl

/-- CALL from a stack pointer above 0, with a return address that fits a byte (R215). -/
theorem exec_call_eq_pushed {s : State} {a : Byte} {i : RegIdx} (hi : a.toNat = i.val) (hpc : s.pc + 2 ≤ 255)
    (h : 0 < s.sp.toNat) :
    exec (.call a) s = .next ((s.pushed (BitVec.ofNat 8 (s.pc + 2))).setPc (s.x i).toNat) := by
  have hr : nextPc .call s = s.pc + 2 := rfl
  simp only [exec, execCall, withReg_of_eq hi, hr, if_neg (show ¬ s.pc + 2 > 255 by omega), push_eq_pushed s _ h, commit_ok]

/-- A fetched HLT halts (R210). -/
theorem step_hlt {t : State} (hrun : t.status = .running) (h : Fetches t .hlt) :
    ∃ u, step t = .next u ∧ u.status = .halted ∧ u.pc = t.pc + 1 :=
  ⟨_, step_runs hrun (fetches_iff_fetch.mp h), State.status_halted.mpr rfl, rfl⟩

/-! ## The obligations -/

/-- Settles O18: a fault writes its record alone, and of all effects only those of PUSH and CALL store a byte. -/
theorem onlyPushAndCallWriteMemory : Obligations.OnlyPushAndCallWriteMemory := by
  intro s t k h hk
  obtain ⟨-, ⟨f, -, rfl⟩ | ⟨i, hi, ⟨e, -, rfl⟩ | heff⟩⟩ := step_next_cases h
  · exact absurd rfl hk
  · exact absurd rfl hk
  · have hfetch : Fetches s i := fetches_iff_fetch.mpr hi
    obtain ⟨haddr, a, rfl | rfl⟩ := heff.pushes_of_byteAt_ne hk
    · exact ⟨haddr, a, .inl hfetch⟩
    · exact ⟨haddr, a, .inr hfetch⟩

/-- Settles O50: the two sides of the bounds check, and the read-after-write law of the cells. -/
theorem memoryInterfaceReadsWhatWasWritten : Obligations.MemoryInterfaceReadsWhatWasWritten := by
  refine fun s addr v => ⟨fun hout => ?_, fun h0 hlt => ?_⟩
  · have hout := outside_iff.mpr hout
    exact ⟨memRead_outside s hout, memWrite_outside s hout v⟩
  · obtain ⟨n, rfl⟩ := Int.eq_ofNat_of_zero_le h0
    have hn : n < 256 := by omega
    refine ⟨memRead_inside s hn, s.setByte n v, memWrite_inside s hn v, ?_, fun k hk => ?_,
      fun _ => rfl, rfl, rfl, rfl, rfl, rfl⟩
    · rw [memRead_inside _ hn, State.byteAt_setByte_same]
    · exact State.byteAt_setByte_other s v (by omega)

/-- Settles O58: both instructions push and go on, at the next instruction or at the target, and `stepsOn_pushed` says what
the fetch there reads. -/
theorem pushedByteIsTheNextInstruction : Obligations.PushedByteIsTheNextInstruction := by
  refine ⟨fun s a i hrun hf hi hsp => ?_, fun s a i hrun hf hi hpc hsp => ?_⟩
  · have hpos : 0 < s.sp.toNat := Nat.pos_of_ne_zero hsp
    have hstep := (step_runs hrun (fetches_iff_fetch.mp hf)).trans (exec_push_eq_pushed hi hpos)
    obtain ⟨hwith, hself⟩ := stepsOn_pushed (s.x i) hrun hpos (s.pc + 2)
    refine ⟨_, hstep, rfl, hwith, fun haddr => ⟨hself haddr, fun hx => ?_⟩⟩
    have hhlt : Fetches ((s.pushed (s.x i)).setPc (s.pc + 2)) .hlt := by
      refine ⟨s.bytesFrom (s.pc + 3), (congrArg decode (bytesFrom_pushed_self _ hpos haddr)).trans ?_⟩
      rw [hx]
      exact decode_zero (o := .hlt) rfl _
    exact ⟨hhlt, step_hlt hrun hhlt⟩
  · have hpos : 0 < s.sp.toNat := Nat.pos_of_ne_zero hsp
    have hstep := (step_runs hrun (fetches_iff_fetch.mp hf)).trans (exec_call_eq_pushed hi hpc hpos)
    exact ⟨_, hstep, rfl, stepsOn_pushed _ hrun hpos _⟩

end Sys2Proof.Machine

/-! # The family of 30_encoding: decode and encode, the opcode map, and the assembler

`decode_eq_ok_iff` says once what decodes, as a list of bytes; the length of an instruction follows from it. The assembler
is read from the outside in: a text is lines, a line statements, a statement a mnemonic and operand words, and a word is a
non-empty list of letters and digits (`IsWord`), which no cut or trim of the reader touches. -/

namespace Sys2Proof

/-! ## Decode and encode -/

/-- The bytes of an instruction decode to it, with the bytes behind them left over (R90). -/
theorem decode_encode (i : Instr) (rest : List Byte) : decode (encode i ++ rest) = .ok (i, rest) := by
  have hbuild := Op.build_operandBytes i
  have hlen := i.operandBytes_length
  unfold encode
  match i.operandBytes, hbuild, hlen, i.op.operands_le with
  | [], hbuild, hlen, _ => rw [← hbuild]; simpa using decode_zero hlen.symm rest
  | [b1], hbuild, hlen, _ => rw [← hbuild]; simpa using decode_one hlen.symm b1 rest
  | [b1, b2], hbuild, hlen, _ => rw [← hbuild]; simpa using decode_two hlen.symm b1 b2 rest
  | _ :: _ :: _ :: _, _, hlen, hle => simp at hlen; omega

/-- What an opcode builds is encoded as the opcode byte and the operand bytes that it has (R81). -/
theorem encode_build (o : Op) (b1 b2 : Byte) : encode (o.build b1 b2) = o.code :: [b1, b2].take o.operands := by
  rw [encode, Op.op_build, Op.operandBytes_build]

/-- What decodes is an encoding and the bytes left over, and nothing else. -/
theorem decode_eq_ok_iff {i : Instr} {bytes rest : List Byte} :
    decode bytes = .ok (i, rest) ↔ bytes = encode i ++ rest := by
  refine ⟨fun h => ?_, fun h => h ▸ decode_encode i rest⟩
  obtain ⟨o, ⟨ho, rfl, rfl⟩ | ⟨ho, b1, rfl, rfl⟩ | ⟨ho, b1, b2, rfl, rfl⟩⟩ := decode_ok_cases h <;>
    rw [encode_build, ho] <;> rfl

theorem encode_length (i : Instr) : (encode i).length = 1 + i.op.operands := by
  rw [encode, List.length_cons, Instr.operandBytes_length, Nat.add_comm]

/-! ## The opcode map and the values outside it -/

theorem Op.ofCode_eq_none {c : Byte} : Op.ofCode c = none ↔ ∀ o : Op, c ≠ o.code := by
  simp only [Option.eq_none_iff_forall_not_mem, Option.mem_def, Op.ofCode_eq_some, ne_eq]

/-- The decoder refuses an opcode byte as illegal exactly where the map has no entry for it (R88). -/
theorem decode_eq_illegal_iff {c : Byte} {rest : List Byte} :
    decode (c :: rest) = .error (.illegal c) ↔ Op.ofCode c = none := by
  refine ⟨fun h => ?_, fun h => decode_illegal h rest⟩
  cases ho : Op.ofCode c with
  | none => rfl
  | some o =>
    simp only [decode, ho] at h
    split at h <;> cases h

end Sys2Proof

namespace Sys2Proof.Machine

open Sys2Proof.Claims

/-- R88's ranges hold every byte value but those of the map. -/
theorem illegalCode_iff_ofCode {c : Byte} : illegalCode c.toNat = true ↔ Op.ofCode c = none := by
  have hlt := c.isLt
  rw [Op.ofCode_eq_none]
  constructor
  · rintro h o rfl
    cases o <;> exact absurd h (by decide)
  · intro h
    have hne : ∀ o ∈ Op.all, c.toNat ≠ o.code.toNat := fun o _ ho => h o (BitVec.eq_of_toNat_eq ho)
    simp [Op.all, Op.code] at hne
    simp only [illegalCode, Bool.or_eq_true, Bool.and_eq_true, beq_iff_eq, decide_eq_true_eq]
    omega

/-! ## Words: what no cut and no trim of the reader touches -/

/-- A mnemonic, a register name or a literal: a non-empty list of letters and digits. -/
def IsWord (l : List Char) : Prop := l ≠ [] ∧ ∀ c ∈ l, c.isAlphanum = true

/-- A text that neither begins nor ends with a blank. -/
def Trimmed (l : List Char) : Prop :=
  (∀ c, l.head? = some c → isBlank c = false) ∧ ∀ c, l.getLast? = some c → isBlank c = false

theorem isBlank_iff {c : Char} : isBlank c = true ↔ c = ' ' ∨ c = '\t' := by simp [isBlank]

theorem isBlank_of_isAlphanum {c : Char} (h : c.isAlphanum = true) : isBlank c = false := by
  by_contra hb
  obtain rfl | rfl := isBlank_iff.mp (Bool.eq_true_of_not_eq_false hb) <;> exact absurd h (by decide)

theorem blanks_nil : Blanks [] := nofun

theorem isBlank_of_mem_blanks {l : List Char} (h : Blanks l) : ∀ c ∈ l, isBlank c = true := fun c hc =>
  isBlank_iff.mpr (h c hc)

theorem notMem_blanks {l : List Char} (h : Blanks l) {c : Char} (hc : isBlank c = false) : c ∉ l := fun hm =>
  Bool.false_ne_true (hc.symm.trans (isBlank_of_mem_blanks h c hm))

theorem IsWord.notMem {l : List Char} (h : IsWord l) {c : Char} (hc : c.isAlphanum = false) : c ∉ l := fun hm =>
  Bool.false_ne_true (hc.symm.trans (h.2 c hm))

theorem IsWord.trimmed {l : List Char} (h : IsWord l) : Trimmed l :=
  ⟨fun c hc => isBlank_of_isAlphanum (h.2 c (List.mem_of_mem_head? hc)),
    fun c hc => isBlank_of_isAlphanum (h.2 c (List.mem_of_getLast? hc))⟩

/-- Whatever stands between two words. -/
theorem IsWord.trimmed_append {a b : List Char} (ha : IsWord a) (hb : IsWord b) (m : List Char) :
    Trimmed (a ++ m ++ b) := by
  refine ⟨fun c hc => ha.trimmed.1 c ?_, fun c hc => hb.trimmed.2 c ?_⟩
  · rwa [List.append_assoc, List.head?_append_of_ne_nil _ ha.1] at hc
  · rwa [List.getLast?_append_of_ne_nil _ hb.1] at hc

/-- Trimming takes the blanks around (R91). -/
theorem trim_blanks {left token right : List Char} (hl : Blanks left) (ht : Trimmed token) (hr : Blanks right) :
    trim (left ++ token ++ right) = token :=
  trim_of_token (isBlank_of_mem_blanks hl) (isBlank_of_mem_blanks hr) ht.1 ht.2

theorem trim_of_blanks {l : List Char} (h : Blanks l) : trim l = [] := by
  simpa using trim_blanks h (token := []) ⟨nofun, nofun⟩ blanks_nil

/-! ## Digits and numbers -/

theorem spellsDigit_lt {d : Nat} {c : Char} (h : SpellsDigit d c) : d < 16 := by
  rcases h with h | h <;> exact (List.getElem?_eq_some_iff.mp h).1

theorem isAlphanum_of_spellsDigit {d : Nat} {c : Char} (h : SpellsDigit d c) : c.isAlphanum = true := by
  have halnum : ∀ x ∈ "0123456789abcdef".toList ++ "0123456789ABCDEF".toList, x.isAlphanum = true := by simp
  exact halnum c (List.mem_append.mpr (h.imp List.mem_of_getElem? List.mem_of_getElem?))

/-- A digit has the same value in every base it is a digit of. -/
theorem digitValue_of_lt {base d : Nat} {c : Char} (h : digitValue 16 c = some d) (hd : d < base) :
    digitValue base c = some d := by
  simp only [digitValue, Option.ite_none_right_eq_some, Option.some.injEq] at h ⊢
  obtain ⟨-, rfl⟩ := h
  exact ⟨hd, rfl⟩

/-- The reader gives a digit, in either case, its value. -/
theorem digitValue_of_spellsDigit {base d : Nat} {c : Char} (hd : d < base) (h : SpellsDigit d c) :
    digitValue base c = some d := by
  refine digitValue_of_lt ?_ hd
  have hlt := spellsDigit_lt h
  unfold SpellsDigit at h
  interval_cases d <;> simp at h <;> rcases h with rfl | rfl <;> rfl

/-- A number is a non-empty string of digits of its base. -/
theorem spellsNumber_digits {base n : Nat} {cs : List Char} (h : SpellsNumber base n cs) :
    cs ≠ [] ∧ ∀ c ∈ cs, ∃ d < base, SpellsDigit d c := by
  induction h with
  | one hd hc => exact ⟨nofun, by simpa using ⟨_, hd, hc⟩⟩
  | more _ hd hc ih =>
    refine ⟨by simp, fun x hx => ?_⟩
    rcases List.mem_append.mp hx with hx | hx
    · exact ih.2 x hx
    · exact List.mem_singleton.mp hx ▸ ⟨_, hd, hc⟩

theorem isWord_of_spellsNumber {base n : Nat} {cs : List Char} (h : SpellsNumber base n cs) : IsWord cs := by
  obtain ⟨hne, hdigits⟩ := spellsNumber_digits h
  refine ⟨hne, fun c hc => ?_⟩
  obtain ⟨d, -, hd⟩ := hdigits c hc
  exact isAlphanum_of_spellsDigit hd

theorem digitsFrom_of_spellsNumber {base n : Nat} {cs : List Char} (h : SpellsNumber base n cs) :
    digitsFrom base 0 cs = some n := by
  induction h with
  | one hd hc => simp [digitsFrom, digitValue_of_spellsDigit hd hc]
  | more _ hd hc ih => simp [digitsFrom_append, ih, digitsFrom, digitValue_of_spellsDigit hd hc, Nat.mul_comm]

theorem parseDigits_of_spellsNumber {base n : Nat} {cs : List Char} (h : SpellsNumber base n cs) :
    parseDigits base cs = some n := by
  rw [← digitsFrom_of_spellsNumber h]
  cases cs with
  | nil => exact absurd rfl (spellsNumber_digits h).1
  | cons c cs => rfl

/-! ## Literals and registers -/

/-- A character that is no digit of the base stands in no number of it. -/
theorem notMem_spellsNumber {base n : Nat} {cs : List Char} (h : SpellsNumber base n cs) {c : Char}
    (hc : digitValue base c = none) : c ∉ cs := fun hm => by
  obtain ⟨d, hd, hdc⟩ := (spellsNumber_digits h).2 c hm
  simp [digitValue_of_spellsDigit hd hdc] at hc

theorem isWord_of_spellsByte {v : Byte} {word : List Char} (h : SpellsByte v word) : IsWord word := by
  have hliteral {x : Char} (hx : x.isAlphanum = true) {base n : Nat} {ds : List Char} (hd : SpellsNumber base n ds) :
      IsWord ('0' :: x :: ds) :=
    ⟨nofun, by simpa [hx] using (isWord_of_spellsNumber hd).2⟩
  obtain h | ⟨ds, rfl, h⟩ | ⟨ds, rfl, h⟩ := h
  · exact isWord_of_spellsNumber h
  · exact hliteral (by decide) h
  · exact hliteral (by decide) h

/-- The three literals of R91 read as their byte. -/
theorem parseByte_of_spellsByte {v : Byte} {word : List Char} (h : SpellsByte v word) : parseByte word = some v := by
  unfold parseByte
  obtain h | ⟨ds, rfl, h⟩ | ⟨ds, rfl, h⟩ := h
  · split
    · exact absurd (by simp) (notMem_spellsNumber h (c := 'x') (by decide))
    · exact absurd (by simp) (notMem_spellsNumber h (c := 'b') (by decide))
    · simp [parseDigits_of_spellsNumber h, v.isLt]
  · simp [parseDigits_of_spellsNumber h, v.isLt]
  · simp [parseDigits_of_spellsNumber h, v.isLt]

/-- The digits of the register names are those of the base 8. -/
theorem spellsDigit_of_octal {k : Nat} {d : Char} (h : ['0', '1', '2', '3', '4', '5', '6', '7'][k]? = some d) :
    k < 8 ∧ SpellsDigit k d := by
  have htake : ['0', '1', '2', '3', '4', '5', '6', '7'] = "0123456789abcdef".toList.take 8 := rfl
  have hk : k < 8 := (List.getElem?_eq_some_iff.mp h).1
  rw [htake, List.getElem?_take_of_lt hk] at h
  exact ⟨hk, .inl h⟩

theorem isWord_of_spellsRegister {a : Byte} {word : List Char} (h : SpellsRegister a word) : IsWord word := by
  obtain ⟨r, d, hr, rfl, hd⟩ | ⟨-, rfl⟩ := h
  · have hd := isAlphanum_of_spellsDigit (spellsDigit_of_octal hd).2
    obtain rfl | rfl := hr <;> exact ⟨nofun, by simp [hd]⟩
  · exact ⟨nofun, by simp⟩

/-- The register names of R91 read as their number. -/
theorem parseReg_of_spellsRegister {a : Byte} {word : List Char} (h : SpellsRegister a word) :
    parseReg word = some a := by
  obtain ⟨r, d, hr, rfl, hd⟩ | ⟨ha, rfl⟩ := h
  · obtain ⟨hlt, hd⟩ := spellsDigit_of_octal hd
    obtain rfl | rfl := hr <;> simp [parseReg, digitValue_of_spellsDigit hlt hd]
  · exact congrArg some (BitVec.eq_of_toNat_eq ha.symm)

/-- No register name begins with a decimal digit. -/
theorem parseReg_digit {c : Char} {cs : List Char} (hc : digitValue 10 c ≠ none) : parseReg (c :: cs) = none := by
  unfold parseReg
  split
  · next heq => obtain ⟨rfl, -⟩ := List.cons_eq_cons.mp heq; exact absurd (by decide) hc
  · next heq =>
    obtain ⟨rfl, -⟩ := List.cons_eq_cons.mp heq
    refine if_neg ?_
    rintro (rfl | rfl) <;> exact absurd (by decide) hc
  · rfl

/-- No literal is a register name: it begins with a decimal digit. -/
theorem parseReg_of_spellsByte {v : Byte} {word : List Char} (h : SpellsByte v word) : parseReg word = none := by
  obtain h | ⟨ds, rfl, -⟩ | ⟨ds, rfl, -⟩ := h
  · obtain ⟨hne, hdigits⟩ := spellsNumber_digits h
    obtain ⟨c, cs, rfl⟩ := List.exists_cons_of_ne_nil hne
    obtain ⟨d, hd, hdc⟩ := hdigits c List.mem_cons_self
    exact parseReg_digit (by simp [digitValue_of_spellsDigit hd hdc])
  · exact parseReg_digit (by decide)
  · exact parseReg_digit (by decide)

theorem parseUnused_of_spells {u : Byte} {word : List Char} (h : SpellsByte u word ∨ SpellsRegister u word) :
    parseUnused word = some u := by
  unfold parseUnused
  obtain h | h := h
  · rw [parseReg_of_spellsByte h]; exact parseByte_of_spellsByte h
  · rw [parseReg_of_spellsRegister h]

/-! ## Operand words -/

/-- No word, one word or two: what every format has. -/
inductive OperandWords : List (List Char) → Prop where
  | none : OperandWords []
  | one {w : List Char} : IsWord w → OperandWords [w]
  | two {w w' : List Char} : IsWord w → IsWord w' → OperandWords [w, w']

/-! What the operand reader answers, format by format (R82, R91). -/

theorem parseOperands_f1r {o : Op} (ho : o.format = .f1r) {w : List Char} {a : Byte} (hw : SpellsRegister a w) :
    parseOperands o [w] = some (o.build a 0#8) := by
  simp [parseOperands, ho, parseReg_of_spellsRegister hw]

theorem parseOperands_f2ri {o : Op} (ho : o.format = .f2ri) {w w' : List Char} {a v : Byte} (hw : SpellsRegister a w)
    (hw' : SpellsByte v w') : parseOperands o [w, w'] = some (o.build a v) := by
  simp [parseOperands, ho, parseReg_of_spellsRegister hw, parseByte_of_spellsByte hw']

theorem parseOperands_f2rr {o : Op} (ho : o.format = .f2rr) {w w' : List Char} {a b : Byte} (hw : SpellsRegister a w)
    (hw' : SpellsRegister b w') : parseOperands o [w, w'] = some (o.build a b) := by
  simp [parseOperands, ho, parseReg_of_spellsRegister hw, parseReg_of_spellsRegister hw']

theorem parseOperands_f2ru {o : Op} (ho : o.format = .f2ru) {w w' : List Char} {a u : Byte} (hw : SpellsRegister a w)
    (hw' : SpellsByte u w' ∨ SpellsRegister u w') : parseOperands o [w, w'] = some (o.build a u) := by
  simp [parseOperands, ho, parseReg_of_spellsRegister hw, parseUnused_of_spells hw']

/-- The shorthand `NOT Ra` (R92). -/
theorem parseOperands_f2ru_shorthand {o : Op} (ho : o.format = .f2ru) {w : List Char} {a : Byte}
    (hw : SpellsRegister a w) : parseOperands o [w] = some (o.build a 0#8) := by
  simp [parseOperands, ho, parseReg_of_spellsRegister hw]

/-- The words that spell an instruction's operands are words, and read as the instruction. -/
theorem operands_of_spells {i : Instr} {words : List (List Char)} (h : SpellsOperands i words) :
    OperandWords words ∧ parseOperands i.op words = some i := by
  cases i with
  | hlt | ret =>
    obtain rfl := h
    exact ⟨.none, rfl⟩
  | push | pop | prn | call | jmp | jeq | jne =>
    obtain ⟨w, rfl, ha⟩ := h
    exact ⟨.one (isWord_of_spellsRegister ha), parseOperands_f1r rfl ha⟩
  | not a u =>
    obtain ⟨w, w', rfl, ha, hu⟩ | ⟨hu, w, rfl, ha⟩ := h
    · exact ⟨.two (isWord_of_spellsRegister ha) (hu.elim isWord_of_spellsByte isWord_of_spellsRegister),
        parseOperands_f2ru rfl ha hu⟩
    · obtain rfl : u = 0#8 := BitVec.eq_of_toNat_eq hu
      exact ⟨.one (isWord_of_spellsRegister ha), parseOperands_f2ru_shorthand rfl ha⟩
  | ldi =>
    obtain ⟨w, w', rfl, ha, hv⟩ := h
    exact ⟨.two (isWord_of_spellsRegister ha) (isWord_of_spellsByte hv), parseOperands_f2ri rfl ha hv⟩
  | add | sub | mul | div | cmp | and | or | xor | shl | shr =>
    obtain ⟨w, w', rfl, ha, hb⟩ := h
    exact ⟨.two (isWord_of_spellsRegister ha) (isWord_of_spellsRegister hb), parseOperands_f2rr rfl ha hb⟩

/-! ## Statements -/

/-- A mnemonic in any mix of cases names its opcode (R91). -/
theorem opOfName_of_toUpper {name : List Char} {o : Op} (h : name.map Char.toUpper = (opName o).toList) :
    opOfName name = some o := by
  rw [opOfName, h]
  cases o <;> rfl

theorem opName_isUpper (o : Op) : ((opName o).toList.all Char.isUpper) = true := by cases o <;> rfl

theorem isWord_of_toUpper {name : List Char} {o : Op} (h : name.map Char.toUpper = (opName o).toList) :
    IsWord name := by
  constructor
  · rintro rfl
    cases o <;> cases h
  · intro c hc
    have hup : c.toUpper.isUpper = true := List.all_eq_true.mp (opName_isUpper o) _ (h ▸ List.mem_map_of_mem hc)
    rw [Char.isUpper_toUpper_eq_isAlpha] at hup
    simp [Char.isAlphanum, hup]

/-- Where the characters of the operand text come from. -/
theorem mem_operandText {gap left right : List Char} {words : List (List Char)} {c : Char}
    (h : c ∈ operandText gap left right words) :
    c ∈ gap ∨ c ∈ left ∨ c ∈ right ∨ c = ',' ∨ ∃ w ∈ words, c ∈ w := by
  match words, h with
  | [w], h => simp [operandText] at h ⊢; tauto
  | w :: w' :: ws, h => simp [operandText] at h ⊢; tauto

/-- The mnemonic is what stands before the first blank. -/
theorem cut_mnemonic {name tail : List Char} (hn : IsWord name) (ht : ∀ c, tail.head? = some c → isBlank c = true) :
    (name ++ tail).takeWhile (fun c => !isBlank c) = name ∧ (name ++ tail).dropWhile (fun c => !isBlank c) = tail := by
  have hname : ∀ c ∈ name, (!isBlank c) = true := fun c hc => by simp [isBlank_of_isAlphanum (hn.2 c hc)]
  rw [List.takeWhile_append_of_pos hname, List.dropWhile_append_of_pos hname]
  cases tail with
  | nil => simp
  | cons c tail => simp [ht c rfl]

/-- The operand words of what stands behind the mnemonic, as `parseStatement` cuts them. -/
def wordsOf (tail : List Char) : List (List Char) :=
  if (trim tail).isEmpty then [] else (splitAt ',' (trim tail)).map trim

theorem parseStatement_of_name {text : List Char} {o : Op}
    (h : opOfName ((trim text).takeWhile fun c => !isBlank c) = some o) :
    parseStatement text = parseOperands o (wordsOf ((trim text).dropWhile fun c => !isBlank c)) := by
  simp only [parseStatement, h, wordsOf]

/-- Cutting at the comma and trimming gives the operand words back (R91). -/
theorem wordsOf_operandText {gap left right : List Char} (hg : Blanks gap) (hl : Blanks left) (hr : Blanks right)
    {words : List (List Char)} (hw : OperandWords words) : wordsOf (operandText gap left right words) = words := by
  cases hw with
  | none => rfl
  | @one w hw =>
    have htrim : trim (gap ++ w) = w := by simpa using trim_blanks hg hw.trimmed blanks_nil
    have hself : trim w = w := by simpa using trim_blanks blanks_nil hw.trimmed blanks_nil
    have hcomma : ',' ∉ w := hw.notMem (by decide)
    simp [wordsOf, operandText, htrim, hw.1, splitAt_of_notMem hcomma, hself]
  | @two w w' hw hw' =>
    have htrim : trim (gap ++ w ++ left ++ [','] ++ right ++ w') = w ++ left ++ [','] ++ (right ++ w') := by
      simpa using trim_blanks hg (hw.trimmed_append hw' (left ++ [','] ++ right)) blanks_nil
    have hfirst : trim (w ++ left) = w := by simpa using trim_blanks blanks_nil hw.trimmed hl
    have hsecond : trim (right ++ w') = w' := by simpa using trim_blanks hr hw'.trimmed blanks_nil
    have hcomma : ',' ∉ w ++ left := by
      simp [hw.notMem (c := ',') (by decide), notMem_blanks hl (c := ',') (by decide)]
    have hcomma' : ',' ∉ right ++ w' := by
      simp [hw'.notMem (c := ',') (by decide), notMem_blanks hr (c := ',') (by decide)]
    simp only [wordsOf, operandText, htrim]
    rw [splitAt_append, splitAt_of_notMem hcomma, splitAt_of_notMem hcomma']
    simp [hw.1, hfirst, hsecond]

theorem trimmed_operandText {name gap left right : List Char} (hn : IsWord name) {words : List (List Char)}
    (hw : OperandWords words) : Trimmed (name ++ operandText gap left right words) := by
  cases hw with
  | none => simpa [operandText] using hn.trimmed
  | one hw => simpa [operandText] using hn.trimmed_append hw gap
  | @two w w' _ hw' => simpa [operandText] using hn.trimmed_append hw' (gap ++ w ++ left ++ [','] ++ right)

/-- What stands behind the mnemonic begins with a blank. -/
theorem head?_operandText {gap left right : List Char} (hg : Blanks gap) (hne : gap ≠ []) {words : List (List Char)}
    {c : Char} (hc : (operandText gap left right words).head? = some c) : isBlank c = true := by
  obtain ⟨g, gap, rfl⟩ := List.exists_cons_of_ne_nil hne
  have hgap := isBlank_of_mem_blanks hg g List.mem_cons_self
  match words, hc with
  | [_], hc => exact Option.some.inj hc ▸ hgap
  | _ :: _ :: _, hc => exact Option.some.inj hc ▸ hgap

/-- A statement of R91 reads as its instruction. -/
theorem parseStatement_of_spells {i : Instr} {text : List Char} (h : SpellsStatement i text) :
    parseStatement text = some i := by
  obtain ⟨before, name, gap, left, right, after, words, hb, hg, hl, hr, ha, hne, hname, hops, rfl⟩ := h
  obtain ⟨hwords, hparse⟩ := operands_of_spells hops
  have hword := isWord_of_toUpper hname
  have htrim : trim (before ++ name ++ operandText gap left right words ++ after) =
      name ++ operandText gap left right words := by
    simpa using trim_blanks hb (trimmed_operandText hword hwords) ha
  obtain ⟨htake, hdrop⟩ := cut_mnemonic (tail := operandText gap left right words) hword fun _ => head?_operandText hg hne
  have hop := opOfName_of_toUpper hname
  rw [parseStatement_of_name (o := i.op) (by rw [htrim, htake, hop]), htrim, hdrop,
    wordsOf_operandText hg hl hr hwords, hparse]

/-- No separator and no comment sign stands in a statement. -/
theorem notMem_of_spellsStatement {i : Instr} {text : List Char} (h : SpellsStatement i text) {c : Char}
    (halnum : c.isAlphanum = false) (hblank : isBlank c = false) (hcomma : c ≠ ',') : c ∉ text := by
  obtain ⟨before, name, gap, left, right, after, words, hb, hg, hl, hr, ha, -, hname, hops, rfl⟩ := h
  have hword {w : List Char} (hw : w ∈ words) : IsWord w := by
    cases (operands_of_spells hops).1 <;> simp at hw
    · exact hw ▸ ‹_›
    · obtain rfl | rfl := hw <;> assumption
  simp only [List.mem_append, not_or]
  refine ⟨⟨⟨notMem_blanks hb hblank, (isWord_of_toUpper hname).notMem halnum⟩, fun hm => ?_⟩, notMem_blanks ha hblank⟩
  obtain hm | hm | hm | hm | ⟨w, hw, hm⟩ := mem_operandText hm
  · exact notMem_blanks hg hblank hm
  · exact notMem_blanks hl hblank hm
  · exact notMem_blanks hr hblank hm
  · exact hcomma hm
  · exact (hword hw).notMem halnum hm

/-- Nothing blank is a statement. -/
theorem trim_ne_nil_of_parseStatement {text : List Char} {i : Instr} (h : parseStatement text = some i) :
    trim text ≠ [] := fun hblank => by
  simp only [parseStatement, hblank] at h
  cases h

/-! ## Lines and texts -/

theorem notMem_of_spellsLine {is : List Instr} {text : List Char} (h : SpellsLine is text) {c : Char}
    (halnum : c.isAlphanum = false) (hblank : isBlank c = false) (hcomma : c ≠ ',') (hsemi : c ≠ ';') : c ∉ text := by
  induction h with
  | empty hb => exact notMem_blanks hb hblank
  | statement h => exact notMem_of_spellsStatement h halnum hblank hcomma
  | more _ _ ih ih' => simp [ih, ih', hsemi]

/-- The statements of a line assemble to the encodings in order, the empty ones to nothing. -/
theorem assembleAll_of_spellsLine {is : List Instr} {text : List Char} (h : SpellsLine is text) :
    assembleAll ((splitAt ';' text).filter fun t => !(trim t).isEmpty) = some (is.flatMap encode) := by
  induction h with
  | empty hb =>
    rw [splitAt_of_notMem (notMem_blanks hb (by decide))]
    simp [trim_of_blanks hb, assembleAll]
  | statement h =>
    have hparse := parseStatement_of_spells h
    rw [splitAt_of_notMem (notMem_of_spellsStatement h (by decide) (by decide) (by decide))]
    simp [trim_ne_nil_of_parseStatement hparse, assembleAll, hparse]
  | more _ _ ih ih' =>
    rw [splitAt_append, List.filter_append, List.flatMap_append]
    exact assembleAll_append ih ih'

/-- A line with a comment or with none. -/
theorem assemble_of_spellsLine {is : List Instr} {text rest : List Char} (h : SpellsLine is text)
    (hrest : rest = [] ∨ ∃ comment, rest = '#' :: comment) (hline : '\n' ∉ rest) :
    assemble (text ++ rest) = some (is.flatMap encode) := by
  have hhash : '#' ∉ text := notMem_of_spellsLine h (by decide) (by decide) (by decide) (by decide)
  have hnewline : '\n' ∉ text := notMem_of_spellsLine h (by decide) (by decide) (by decide) (by decide)
  rw [assemble, statements_line (by simp [hnewline, hline]), dropComment_append hhash hrest]
  exact assembleAll_of_spellsLine h

/-- A text of R91 assembles to the encodings of its instructions in order. -/
theorem assemble_of_spellsText {is : List Instr} {text : List Char} (h : SpellsText is text) :
    assemble text = some (is.flatMap encode) := by
  induction h with
  | line h => simpa using assemble_of_spellsLine h (.inl rfl) (by simp)
  | @commented _ _ comment h hc =>
    simpa using assemble_of_spellsLine h (rest := '#' :: comment) (.inr ⟨_, rfl⟩) (by simp [hc])
  | more _ _ ih ih' =>
    rw [assemble, statements_append, List.flatMap_append]
    exact assembleAll_append ih ih'

/-! ## The statement of one instruction -/

theorem spellsDigit_digitChar {d : Nat} (h : d < 10) : SpellsDigit d (digitChar d) := by
  left
  interval_cases d <;> rfl

/-- The decimal spelling of a byte is a number of its value (R182). -/
theorem spellsNumber_decimalDigits (v : Byte) : SpellsNumber 10 v.toNat (decimalDigits v) := by
  have hone {d : Nat} (hd : d < 10) : SpellsNumber 10 d [digitChar d] := .one hd (spellsDigit_digitChar hd)
  have hmore {n : Nat} {cs : List Char} (hn : SpellsNumber 10 (n / 10) cs) :
      SpellsNumber 10 n (cs ++ [digitChar (n % 10)]) := by
    have hd : n % 10 < 10 := Nat.mod_lt n (by decide)
    simpa [Nat.div_add_mod] using SpellsNumber.more hn hd (spellsDigit_digitChar hd)
  have hlt := v.isLt
  simp only [decimalDigits]
  generalize v.toNat = n at hlt ⊢
  split
  · exact hone ‹_›
  · split
    · exact hmore (hone (by omega))
    · refine hmore (cs := [digitChar (n / 100), digitChar (n / 10 % 10)]) (hmore (cs := [digitChar (n / 100)]) ?_)
      rw [Nat.div_div_eq_div_mul]
      exact hone (by omega)

theorem spellsRegister_regName {a : Byte} (h : regByteOk a = true) : SpellsRegister a (regName a) := by
  have hlt : a.toNat < 8 := of_decide_eq_true h
  refine .inl ⟨'R', digitChar a.toNat, .inl rfl, rfl, ?_⟩
  generalize a.toNat = n at hlt
  interval_cases n <;> rfl

/-- The operand words `statementOf` writes: the register fields by name, the other operand bytes in decimal. -/
def operandWordsOf (i : Instr) : List (List Char) :=
  i.regFields.map regName ++ (i.operandBytes.drop i.regFields.length).map decimalDigits

theorem statementOf_eq (i : Instr) :
    statementOf i = (opName i.op).toList ++ operandText [' '] [] [' '] (operandWordsOf i) := by
  cases i <;> simp [statementOf, operandText, operandWordsOf, Instr.regFields, Instr.operandBytes, Instr.op]

theorem spellsOperands_operandWordsOf {i : Instr} (h : i.wellFormed = true) : SpellsOperands i (operandWordsOf i) := by
  have hreg : ∀ a ∈ i.regFields, SpellsRegister a (regName a) := fun a ha =>
    spellsRegister_regName (List.all_eq_true.mp h a ha)
  cases i with
  | hlt | ret => rfl
  | push a | pop a | prn a | call a | jmp a | jeq a | jne a =>
    exact ⟨_, rfl, hreg a List.mem_cons_self⟩
  | not a u => exact .inl ⟨_, _, rfl, hreg a List.mem_cons_self, .inl (.inl (spellsNumber_decimalDigits u))⟩
  | ldi a v => exact ⟨_, _, rfl, hreg a List.mem_cons_self, .inl (spellsNumber_decimalDigits v)⟩
  | add a b | sub a b | mul a b | div a b | cmp a b | and a b | or a b | xor a b | shl a b | shr a b =>
    exact ⟨_, _, rfl, hreg a List.mem_cons_self, hreg b (List.mem_cons_of_mem _ List.mem_cons_self)⟩

/-- Mnemonics are written in capitals. -/
theorem map_toUpper_opName (o : Op) : (opName o).toList.map Char.toUpper = (opName o).toList := by cases o <;> rfl

/-- The shape `statementOf` writes is one of R91's. -/
theorem spellsStatement_statementOf {i : Instr} (h : i.wellFormed = true) : SpellsStatement i (statementOf i) := by
  have hspace : Blanks [' '] := by simp [Blanks]
  exact ⟨[], (opName i.op).toList, [' '], [], [' '], [], operandWordsOf i, blanks_nil, hspace, blanks_nil, hspace,
    blanks_nil, nofun, map_toUpper_opName i.op, spellsOperands_operandWordsOf h, by simp [statementOf_eq]⟩

/-! ## The obligations -/

/-- Settles O1: what decodes is an encoding followed by the bytes left over. -/
theorem decodeAndEncodeAgree : Obligations.DecodeAndEncodeAgree := fun _ _ _ => decode_eq_ok_iff

/-- Settles O2: both byte lists are encodings, and an encoding begins with its opcode's byte. -/
theorem theOpcodeAloneGivesTheLength : Obligations.TheOpcodeAloneGivesTheLength := by
  intro bytes rest i h
  obtain rfl := decode_eq_ok_iff.mp h
  have hle := i.op.operands_le
  refine ⟨rfl, by rw [List.length_append, encode_length], by omega, fun others rest' i' hhead h' => ?_⟩
  obtain rfl := decode_eq_ok_iff.mp h'
  have hop : i'.op = i.op := Op.code_injective (Option.some.inj hhead)
  refine ⟨hop, ?_⟩
  rw [List.length_append, List.length_append, encode_length, encode_length, hop]
  omega

/-- Settles O4: the ranges are the bytes that the map has no entry for, counting them is a finite evaluation, and the fetch
of such a byte faults before any operand byte is read. -/
theorem illegalOpcodesAreTheUnlistedValues : Obligations.IllegalOpcodesAreTheUnlistedValues := by
  refine ⟨fun c rest => decode_eq_illegal_iff.trans illegalCode_iff_ofCode.symm, by decide +kernel,
    fun s hrun hpc hill => ?_⟩
  exact step_fetch_fault hrun (fetch_illegal hpc (illegalCode_iff_ofCode.mp hill))

/-- Settles O3: the map is finite, and the decoder computes on the words written out. -/
theorem opcodeMapIsTheTable : Obligations.OpcodeMapIsTheTable :=
  ⟨rfl, rfl, rfl, rfl, rfl, rfl⟩

/-- Settles O57: a text is cut into its lines, a line into its statements, and each statement reads as its instruction. -/
theorem assemblerReadsEveryStatement : Obligations.AssemblerReadsEveryStatement := by
  refine ⟨fun _ _ => assemble_of_spellsText, fun i h => ?_⟩
  have hspells : SpellsText [i] (statementOf i) := .line (.statement (spellsStatement_statementOf h))
  exact ⟨hspells, by simpa using assemble_of_spellsText hspells⟩

end Sys2Proof.Machine

/-! # The family of 40_execution_engine: what decides a step, and where it leaves `pc`

A step is what the bytes at `pc` decode to (`stepsOn_bytesFrom`). What is added here is the record of a faulting step, the
order of the register checks, the table of R117 read off `Effect`, and runs as counted steps. -/

namespace Sys2Proof

/-! ## Operand bytes an opcode does not have -/

/-- An opcode without operand bytes looks at none (R81). -/
theorem Op.build_of_operands_zero {o : Op} (h : o.operands = 0) (b1 b2 b1' b2' : Byte) :
    o.build b1 b2 = o.build b1' b2' := by
  cases o with
  | hlt | ret => rfl
  | _ => cases h

/-- An opcode with one operand byte does not look at a second one (R81). -/
theorem Op.build_of_operands_one {o : Op} (h : o.operands = 1) (b1 b2 b2' : Byte) : o.build b1 b2 = o.build b1 b2' := by
  cases o with
  | push | pop | prn | call | jmp | jeq | jne => rfl
  | _ => cases h

/-- No format has more than two register fields (R82). -/
theorem Instr.regFields_length_le (i : Instr) : i.regFields.length ≤ 2 := by
  cases i <;> simp [Instr.regFields]

end Sys2Proof

namespace Sys2Proof.Machine

open Sys2Proof.Claims

/-! ## The fetch -/

/-- The opcode byte of a fetched instruction is the one at `pc` (R112). -/
theorem fetch_ok_byteAt {s : State} {i : Instr} (h : fetch s = .ok i) : s.byteAt s.pc = i.op.code := by
  rcases fetch_cases s with ⟨-, h'⟩ | ⟨-, -, h'⟩ | ⟨_, -, -, -, h'⟩ | ⟨_, hc, -, h'⟩ <;> rw [h'] at h <;> cases h
  exact hc

/-- A fetch that got past the opcode byte records it (R243). -/
theorem fetch_error_opcode {s : State} {f : FetchFault} (h : fetch s = .error f) (hpc : s.pc < 256) :
    f.opcode = some (s.byteAt s.pc) := by
  rcases fetch_cases s with ⟨hp, h'⟩ | ⟨-, -, h'⟩ | ⟨_, -, hc, -, h'⟩ | ⟨_, -, -, h'⟩ <;> rw [h'] at h <;> cases h
  · omega
  · rfl
  · exact congrArg some hc.symm

/-- With its operand addresses inside memory, an opcode is fetched with the bytes behind it (R114). -/
theorem fetch_operands_inside {s : State} {o : Op} (hc : s.byteAt s.pc = o.code) (h : s.pc + o.operands < 256) :
    fetch s = .ok (o.build (s.byteAt (s.pc + 1)) (s.byteAt (s.pc + 2))) := by
  have hle := o.operands_le
  rcases (by omega : o.operands = 0 ∨ o.operands = 1 ∨ o.operands = 2) with ho | ho | ho
  · rw [fetch_zero (by omega) hc ho, Op.build_of_operands_zero ho]
  · rw [fetch_one (by omega) hc ho, Op.build_of_operands_one ho]
  · exact fetch_two (by omega) hc ho

/-- The first operand address outside memory is 256, and the step reports it (R114). -/
theorem operandFetchFaults (o : Op) : OperandFetchFaults o.code o.operands := by
  intro s hrun hpc hc k _ hk hin hout
  have hlen : 256 < s.pc + o.length := by unfold Op.length; omega
  rw [step_fetch_fault hrun (fetch_operand_outside hpc hc hlen), show s.pc + k = 256 by omega]
  rfl

/-! ## The record of a step -/

/-- In a Running state a step answers a next state (R110, R123). -/
theorem step_next_of_running {s : State} (h : s.status = .running) : ∃ t, step s = .next t := by
  cases hf : fetch s with
  | error f => exact ⟨_, step_fetch_fault h hf⟩
  | ok i => rw [step_runs h hf]; exact exec_next i s

/-- A fault recorded by a step at an address inside memory has the opcode byte at `pc` (R243). -/
theorem step_record_opcode {s t : State} {r : FaultRecord} (hpc : s.pc < 256) (h : step s = .next t)
    (hr : t.fault = some r) : r.opcode = some (s.byteAt s.pc) := by
  obtain ⟨hrun, ⟨f, hf, rfl⟩ | ⟨i, hi, ⟨e, -, rfl⟩ | heff⟩⟩ := step_next_cases h
  · cases hr; exact fetch_error_opcode hf hpc
  · cases hr; exact congrArg some (fetch_ok_byteAt hi).symm
  · have hnone := heff.fault_eq.trans (State.status_running.mp hrun).2
    rw [hnone] at hr; cases hr

/-! ## The order of the register checks -/

/-- The first register field is checked before anything else an instruction does (R115). -/
theorem exec_first_field_invalid {i : Instr} {a : Byte} {after : List Byte} (hf : i.regFields = a :: after)
    (h : 8 ≤ a.toNat) (s : State) : exec i s = .next (s.raise (some i.op.code) ⟨.invalidRegister, a.toNat⟩) := by
  have hone (op : Op) (f : RegIdx → Except Raise State) :
      commit op s (withReg a f) = .next (s.raise (some op.code) ⟨.invalidRegister, a.toNat⟩) := by
    rw [withReg_invalid h, commit_error]
  cases i with
  | hlt | ret => cases hf
  | _ => cases hf; exact hone _ _

/-- The second register field is checked once the first one is valid (R115). -/
theorem exec_second_field_invalid {i : Instr} {a b : Byte} (hf : i.regFields = [a, b]) (ha : a.toNat < 8)
    (hb : 8 ≤ b.toNat) (s : State) : exec i s = .next (s.raise (some i.op.code) ⟨.invalidRegister, b.toNat⟩) := by
  have htwo (op : Op) (f : RegIdx → RegIdx → Except Raise State) :
      commit op s (withRegs a b f) = .next (s.raise (some op.code) ⟨.invalidRegister, b.toNat⟩) := by
    rw [withRegs_second_invalid (i := ⟨a.toNat, ha⟩) rfl hb, commit_error]
  cases i with
  | add | sub | mul | div | cmp | and | or | xor | shl | shr => cases hf; exact htwo _ _
  | _ => cases hf

/-- The first register field that is 8 or more is the one an instruction reports (R115). -/
theorem exec_invalid_field {i : Instr} {before after : List Byte} {v : Byte} (hf : i.regFields = before ++ v :: after)
    (hb : ∀ w ∈ before, w.toNat < 8) (hv : 8 ≤ v.toNat) (s : State) :
    exec i s = .next (s.raise (some i.op.code) ⟨.invalidRegister, v.toNat⟩) := by
  have hle : (before ++ v :: after).length ≤ 2 := hf ▸ i.regFields_length_le
  match before, after with
  | [], _ => exact exec_first_field_invalid hf hv s
  | [a], [] => exact exec_second_field_invalid hf (hb a List.mem_cons_self) hv s
  | [_], _ :: _ => simp at hle
  | _ :: _ :: _, _ => simp at hle

/-- Nothing but a register field of 8 or more raises InvalidRegister (R115). -/
theorem Raises.kind_ne_invalidRegister {s : State} {i : Instr} {e : Raise} (h : Raises s i e)
    (hok : ∀ w ∈ i.regFields, w.toNat < 8) : e.kind ≠ .invalidRegister := by
  cases h with
  | @register _ _ _ v hf _ h8 =>
    have := hok v (by simp [hf])
    omega
  | _ => nofun

/-! ## The table of R117 -/

theorem regOf_of_eq (s : State) {a : Byte} {i : RegIdx} (h : a.toNat = i.val) : regOf s a = (s.x i).toNat := by
  rw [regOf, dif_pos (RegIdx.byte_lt h)]
  exact congrArg (fun j => (s.x j).toNat) (Fin.ext h)

/-- What an instruction that raises nothing leaves in `pc` (R117). -/
theorem Effect.pc_eq {s t : State} {i : Instr} (h : Effect s i t) : t.pc = pcAfter s i := by
  cases h with
  | hlt | ret | push | pop | prn | cmp => rfl
  | call hi | jmp hi => exact (regOf_of_eq s hi).symm
  | jeq hi | jne hi => rw [pcAfter, regOf_of_eq s hi]; split <;> rfl
  | register ho =>
    cases i with
    | not | ldi | add | sub | mul | div | cmp | and | or | xor | shl | shr => rfl
    | _ => cases ho

/-! ## Runs as counted steps -/

/-- The steps after the first one. -/
theorem stepsTo_succ_iff {s u : State} (h : step s = .next u) (n : Nat) (t : State) :
    StepsTo (n + 1) s t ↔ StepsTo n u t := by
  simp [StepsTo, h]

/-- Steps to another state begin with the first one. -/
theorem stepsTo_le_succ_iff {s t u : State} (h : step s = .next u) (hne : s ≠ t) (budget : Nat) :
    (∃ n, n ≤ budget + 1 ∧ StepsTo n s t) ↔ ∃ n, n ≤ budget ∧ StepsTo n u t := by
  constructor
  · rintro ⟨_ | n, hn, hst⟩
    · exact absurd hst hne
    · exact ⟨n, by omega, (stepsTo_succ_iff h n t).mp hst⟩
  · rintro ⟨n, hn, hst⟩
    exact ⟨n + 1, by omega, (stepsTo_succ_iff h n t).mpr hst⟩

/-- From a terminal state no step leads anywhere (R111). -/
theorem stepsTo_terminal {s : State} (h : s.status ≠ .running) (n : Nat) (t : State) :
    StepsTo n s t ↔ n = 0 ∧ s = t := by
  cases n with
  | zero => simp [StepsTo]
  | succ n => exact ⟨fun ⟨_, hu, _⟩ => absurd (step_next_cases hu).1 h, nofun⟩

/-- A step that changes nothing leads nowhere else, however often it is taken. -/
theorem stepsTo_fixed {s : State} (h : step s = .next s) (n : Nat) (t : State) : StepsTo n s t ↔ s = t := by
  induction n with
  | zero => rfl
  | succ n ih => rw [stepsTo_succ_iff h, ih]

/-- A run from a terminal state has ended, by no step, and has spent no budget (R111). -/
theorem run_terminal_iff {s : State} (hs : s.status ≠ .running) (budget : Nat) (t : State) :
    (run budget s = .ended t ↔ t.status ≠ .running ∧ ∃ n, n ≤ budget ∧ StepsTo n s t) ∧
    (run budget s = .budgetExhausted t ↔ t.status = .running ∧ StepsTo budget s t) := by
  simp only [run_terminal hs, stepsTo_terminal hs]
  refine ⟨⟨?_, ?_⟩, nofun, ?_⟩
  · rintro ⟨⟩
    exact ⟨hs, 0, Nat.zero_le budget, rfl, rfl⟩
  · rintro ⟨-, -, -, -, rfl⟩
    rfl
  · rintro ⟨ht, -, rfl⟩
    exact absurd ht hs

/-- What a run comes back with, in counted steps (R119, R120, R276). -/
theorem run_iff (budget : Nat) (s t : State) :
    (run budget s = .ended t ↔ t.status ≠ .running ∧ ∃ n, n ≤ budget ∧ StepsTo n s t) ∧
    (run budget s = .budgetExhausted t ↔ t.status = .running ∧ StepsTo budget s t) := by
  induction budget generalizing s with
  | zero =>
    by_cases hs : s.status = .running
    · simp only [run_zero hs, Nat.le_zero, exists_eq_left]
      refine ⟨⟨nofun, fun ⟨ht, hst⟩ => absurd hs (hst ▸ ht)⟩, ?_, fun ⟨_, hst⟩ => congrArg _ hst⟩
      rintro ⟨⟩
      exact ⟨hs, rfl⟩
    · exact run_terminal_iff hs 0 t
  | succ budget ih =>
    by_cases hs : s.status = .running
    · obtain ⟨u, hu⟩ := step_next_of_running hs
      obtain ⟨hended, hspent⟩ := ih u
      rw [run_succ hs hu, hended, hspent, stepsTo_succ_iff hu]
      refine ⟨and_congr_right fun ht => ?_, Iff.rfl⟩
      exact (stepsTo_le_succ_iff hu (by rintro rfl; exact ht hs) budget).symm
    · exact run_terminal_iff hs (budget + 1) t

/-- A JMP to its own address changes nothing (R212). -/
theorem step_jmp_self {s : State} {a : Byte} {i : RegIdx} (hrun : s.status = .running) (hf : Fetches s (.jmp a))
    (hi : a.toNat = i.val) (hpc : (s.x i).toNat = s.pc) : step s = .next s := by
  rw [step_runs hrun (fetches_iff_fetch.mp hf), exec, execJmp, withReg_of_eq hi, commit_ok, hpc]
  rfl

/-! ## The obligations -/

/-- Settles O10: the decoder's reasons are those of the fetch. -/
theorem undecodableBytesRaiseTheirFault : Obligations.UndecodableBytesRaiseTheirFault := fun _ hrun =>
  (stepsOn_bytesFrom hrun).2

/-- Settles O11: the terminal check stands first in a step and in a run, and a Running state has a next state. -/
theorem stepsAreTakenExactlyWhileRunning : Obligations.StepsAreTakenExactlyWhileRunning := by
  refine fun s => ⟨⟨step_next_of_running, fun ⟨_, h⟩ => (step_next_cases h).1⟩, fun hs => ?_, fun r hs hr => ?_, ?_⟩
  · exact step_halted (State.status_halted.mp hs)
  · exact step_faulted (State.status_faulted.mp hs).1 hr
  · exact run_terminal

/-- Settles O12: the opcode fetch is the first thing a step does, and what faults after it records the byte it read. -/
theorem opcodeFetchPastMemoryRaises : Obligations.OpcodeFetchPastMemoryRaises := fun _ hrun =>
  ⟨fun hpc => step_fetch_fault hrun (fetch_pc_outside hpc), fun hpc _ _ => step_record_opcode hpc⟩

/-- Settles O13: the fetch reports the first operand address outside memory, and with none it builds the instruction. -/
theorem operandBytesAreFetchedInOrder : Obligations.OperandBytesAreFetchedInOrder := fun _ o hrun _ hc =>
  ⟨operandFetchFaults o, fun hin => step_runs hrun (fetch_operands_inside hc hin)⟩

/-- Settles O14: the first invalid field is reported, and no other raise is an InvalidRegister. -/
theorem registerFieldsAreCheckedInOrder : Obligations.RegisterFieldsAreCheckedInOrder := by
  refine ⟨fun i s _ _ _ hf hb hv => exec_invalid_field hf hb hv s, fun i s t r hok hnone h hr => ?_,
    fun i => by cases i <;> rfl⟩
  rcases exec_cases i s with ⟨e, he, hx⟩ | ⟨u, hu, hx⟩ <;> rw [hx] at h <;> injection h with h <;> subst h
  · cases hr
    exact he.kind_ne_invalidRegister hok
  · rw [hu.fault_eq, hnone] at hr
    cases hr

/-- Settles O15: a raise leaves `pc` and records a fault; an effect records none and leaves what the table says. -/
theorem programCounterUpdates : Obligations.ProgramCounterUpdates := by
  intro s t i hfetches h
  have hfetch := fetches_iff_fetch.mp hfetches
  obtain ⟨hrun, ⟨f, hf, -⟩ | ⟨j, hj, hcases⟩⟩ := step_next_cases h
  · rw [hfetch] at hf
    cases hf
  · obtain rfl : i = j := Except.ok.inj (hfetch.symm.trans hj)
    obtain ⟨e, -, rfl⟩ | heff := hcases
    · exact ⟨nofun, fun _ => rfl⟩
    · have hnone := heff.fault_eq.trans (State.status_running.mp hrun).2
      exact ⟨fun _ => heff.pc_eq, absurd hnone⟩

/-- Settles O55: by induction on the budget, a run being its first step and the run after it. -/
theorem runsEndOrSpendTheirBudget : Obligations.RunsEndOrSpendTheirBudget := run_iff

/-- Settles O56: the state is its own next state, so any number of steps leads to it alone. -/
theorem jumpToItselfNeverEnds : Obligations.JumpToItselfNeverEnds := by
  intro s a i hrun hf hi hpc
  have hself := step_jmp_self hrun hf hi hpc
  refine ⟨fun budget => ⟨s, (run_iff budget s s).2.mpr ⟨hrun, (stepsTo_fixed hself budget s).mpr rfl⟩⟩, ?_⟩
  rintro t ⟨n, hn⟩
  exact ((stepsTo_fixed hself n t).mp hn).symm

/-- Settles O9: the fetch reads the instruction that the bytes at `pc` decode to. -/
theorem stepRunsTheDecodedInstruction : Obligations.StepRunsTheDecodedInstruction := fun _ i rest hrun h =>
  (stepsOn_bytesFrom hrun).1 i rest h

end Sys2Proof.Machine

/-! # The family of 41_alu: the eleven ALU instructions

Every ALU instruction leaves `(s.setX i v).advance o` (R140, R117), except CMP and a DIV that raises;
`exec_setX_advance` says once what that state is. What is left of an instruction is its format (`twoRegisterFormat`) and
its result as a number or bit by bit (`aluAdd_toNat` and the lemmas beside it). -/

namespace Sys2Proof.Machine

open Sys2Proof.Claims

/-! ## The results of the ALU as natural numbers (R142) -/

@[simp] theorem aluAdd_toNat (va vb : Byte) : (aluAdd va vb).toNat = (va.toNat + vb.toNat) % 256 := by
  rw [aluAdd, wrap8_toNat]
  omega

@[simp] theorem aluSub_toNat (va vb : Byte) : (aluSub va vb).toNat = (va.toNat + 256 - vb.toNat) % 256 := by
  have hb := vb.isLt
  rw [aluSub, wrap8_toNat]
  omega

@[simp] theorem aluMul_toNat (va vb : Byte) : (aluMul va vb).toNat = va.toNat * vb.toNat % 256 := by
  rw [aluMul, wrap8_toNat, ← Int.natCast_mul]
  omega

@[simp] theorem aluDiv_toNat (va vb : Byte) : (aluDiv va vb).toNat = va.toNat / vb.toNat := by
  rw [aluDiv, BitVec.toNat_ofNat]
  exact Nat.mod_eq_of_lt ((Nat.div_le_self _ _).trans_lt va.isLt)

@[simp] theorem aluShl_toNat (va amount : Byte) : (aluShl va amount).toNat = va.toNat * 2 ^ amount.toNat % 256 :=
  BitVec.toNat_ofNat _ _

@[simp] theorem aluShr_toNat (va amount : Byte) : (aluShr va amount).toNat = va.toNat / 2 ^ amount.toNat := by
  rw [aluShr, BitVec.toNat_ofNat]
  exact Nat.mod_eq_of_lt ((Nat.div_le_self _ _).trans_lt va.isLt)

@[simp] theorem aluNot_toNat (va : Byte) : (aluNot va).toNat = 255 - va.toNat := BitVec.toNat_not

/-- An amount of 8 or more shifts every bit out at the top (R151). -/
theorem shl_eq_zero (v : Nat) {amount : Nat} (h : 8 ≤ amount) : v * 2 ^ amount % 256 = 0 :=
  Nat.mod_eq_zero_of_dvd ((Nat.pow_dvd_pow 2 h).mul_left v)

/-- An amount of 8 or more shifts every bit out at the bottom (R152). -/
theorem shr_eq_zero (v : Byte) {amount : Nat} (h : 8 ≤ amount) : v.toNat / 2 ^ amount = 0 :=
  Nat.div_eq_of_lt (v.isLt.trans_le (Nat.pow_le_pow_right (by decide) h))

/-! ## What the instructions of one shape share -/

/-- Format F2RR has both its operand bytes as register fields (R82). -/
theorem regFields_build_f2rr {o : Op} (ho : o.format = .f2rr) (a b : Byte) : (o.build a b).regFields = [a, b] := by
  cases o with
  | add | sub | mul | div | cmp | and | or | xor | shl | shr => rfl
  | _ => cases ho

theorem operands_f2rr {o : Op} (ho : o.format = .f2rr) : o.operands = 2 := by rw [Op.operands, ho]; rfl

/-- The encoding and the frame faults of the two-register instructions (R143). -/
theorem twoRegisterFormat {o : Op} (ho : o.format = .f2rr) : TwoRegisterFormat o.code o.build := by
  have htwo := operands_f2rr ho
  refine ⟨decode_two htwo, htwo ▸ operandFetchFaults o, fun b s a ha => ?_, fun s a b ha hb => ?_⟩
  · rw [exec_first_field_invalid (regFields_build_f2rr ho a b) ha s, Op.op_build]
  · rw [exec_second_field_invalid (regFields_build_f2rr ho a b) ha hb s, Op.op_build]

/-- What an instruction of three bytes that writes one register leaves behind. -/
theorem exec_setX_advance {n : Instr} {s : State} {o : Op} {i : RegIdx} {v : Byte} (ho : o.operands = 2)
    (h : exec n s = .next ((s.setX i v).advance o)) :
    ∃ t, exec n s = .next t ∧ t.x i = v ∧ t.pc = s.pc + 3 ∧ RegisterFrame i s t := by
  refine ⟨_, h, by simp, by simp [Op.length, ho], fun r hr => ?_, rfl, ⟨rfl, rfl, rfl⟩, fun _ => rfl⟩
  rw [State.x_advance, State.x_setX_other s v hr]

/-- The two-register instruction `o` writes `f` of the two values to its first register, and raises nothing. -/
def Computes (o : Op) (f : Byte → Byte → Byte) : Prop :=
  ∀ (s : State) (a b : Byte) (i j : RegIdx), a.toNat = i.val → b.toNat = j.val →
    exec (o.build a b) s = .next ((s.setX i (f (s.x i) (s.x j))).advance o)

theorem computes_of_aluApply {o : Op} {g : AluOp} {f : Byte → Byte → Byte}
    (hexec : ∀ a b s, exec (o.build a b) s = aluTwo o g a b s)
    (happly : ∀ i j s, aluApply g i j s = .ok (s.setX i (f (s.x i) (s.x j)))) : Computes o f := fun s a b i j ha hb =>
  (hexec a b s).trans (aluTwo_of_eq o g s ha hb (happly i j s))

theorem Computes.arithmeticRule {o : Op} {f : Byte → Byte → Byte} {result : Nat → Nat → Nat} (h : Computes o f)
    (ho : o.format = .f2rr) (hresult : ∀ va vb, (f va vb).toNat = result va.toNat vb.toNat) :
    ArithmeticRule o.code o.build result := by
  refine ⟨twoRegisterFormat ho, fun s a b i j ha hb => ?_⟩
  obtain ⟨t, hexec, hx, hpc, hframe⟩ := exec_setX_advance (operands_f2rr ho) (h s a b i j ha hb)
  exact ⟨t, hexec, by rw [hx, hresult], hpc, hframe⟩

theorem Computes.bitwiseRule {o : Op} {f : Byte → Byte → Byte} {bit : Bool → Bool → Bool} (h : Computes o f)
    (ho : o.format = .f2rr)
    (hbit : ∀ (va vb : Byte) (k : Nat), (f va vb).getLsbD k = bit (va.getLsbD k) (vb.getLsbD k)) :
    BitwiseRule o.code o.build bit := by
  refine ⟨twoRegisterFormat ho, fun s a b i j ha hb => ?_⟩
  obtain ⟨t, hexec, hx, hpc, hframe⟩ := exec_setX_advance (operands_f2rr ho) (h s a b i j ha hb)
  exact ⟨t, hexec, fun k _ => by rw [hx, hbit], hpc, hframe⟩

/-! The two-register instructions that raise nothing past their frame faults (R144 to R152). -/

theorem computes_add : Computes .add aluAdd := computes_of_aluApply exec_add fun _ _ _ => rfl
theorem computes_sub : Computes .sub aluSub := computes_of_aluApply exec_sub fun _ _ _ => rfl
theorem computes_mul : Computes .mul aluMul := computes_of_aluApply exec_mul fun _ _ _ => rfl
theorem computes_and : Computes .and aluAnd := computes_of_aluApply exec_and fun _ _ _ => rfl
theorem computes_or : Computes .or aluOr := computes_of_aluApply exec_or fun _ _ _ => rfl
theorem computes_xor : Computes .xor aluXor := computes_of_aluApply exec_xor fun _ _ _ => rfl
theorem computes_shl : Computes .shl aluShl := computes_of_aluApply exec_shl fun _ _ _ => rfl
theorem computes_shr : Computes .shr aluShr := computes_of_aluApply exec_shr fun _ _ _ => rfl

/-! ## The obligations -/

/-- Settles O24: the sum kept by `wrap8` is the sum modulo 256. -/
theorem addWrapsModulo256 : Obligations.AddWrapsModulo256 :=
  computes_add.arithmeticRule rfl aluAdd_toNat

/-- Settles O25: the integer difference modulo 256 is that of the natural numbers with 256 added. -/
theorem subWrapsModulo256 : Obligations.SubWrapsModulo256 :=
  computes_sub.arithmeticRule rfl aluSub_toNat

/-- Settles O26: the product kept by `wrap8` is its low byte. -/
theorem mulKeepsTheLowByte : Obligations.MulKeepsTheLowByte :=
  computes_mul.arithmeticRule rfl aluMul_toNat

/-- Settles O27: the ALU tests the divisor, and a quotient of bytes is a byte. -/
theorem divTruncatesOrRaises : Obligations.DivTruncatesOrRaises := by
  refine ⟨twoRegisterFormat (o := .div) rfl, fun s a b i j ha hb hne => ?_, fun s a b j ha hb hzero => ?_⟩
  · have hvb : s.x j ≠ 0#8 := fun h => hne (by rw [h]; rfl)
    have happly : aluApply .div i j s = .ok (s.setX i (aluDiv (s.x i) (s.x j))) := if_neg hvb
    obtain ⟨t, hexec, hx, hpc, hframe⟩ := exec_setX_advance (n := .div a b) rfl (aluTwo_of_eq .div .div s ha hb happly)
    exact ⟨t, hexec, by rw [hx, aluDiv_toNat], hpc, hframe⟩
  · have hvb : s.x j = 0#8 := BitVec.eq_of_toNat_eq hzero
    exact aluTwo_raises .div .div (i := ⟨a.toNat, ha⟩) s rfl hb (if_pos hvb)

/-- Settles O28: a bit of the conjunction is the conjunction of the bits. -/
theorem andIsBitByBit : Obligations.AndIsBitByBit :=
  computes_and.bitwiseRule rfl fun _ _ _ => BitVec.getLsbD_and

/-- Settles O29: a bit of the disjunction is the disjunction of the bits. -/
theorem orIsBitByBit : Obligations.OrIsBitByBit :=
  computes_or.bitwiseRule rfl fun _ _ _ => BitVec.getLsbD_or

/-- Settles O30: a bit of the exclusive or says whether the bits differ. -/
theorem xorIsBitByBit : Obligations.XorIsBitByBit :=
  computes_xor.bitwiseRule rfl fun _ _ _ => BitVec.getLsbD_xor

/-- Settles O31: the two readings agree, since the product with `2 ^ 8` or more is 0 modulo 256. -/
theorem shlByTheWholeAmount : Obligations.ShlByTheWholeAmount := by
  refine ⟨computes_shl.arithmeticRule rfl aluShl_toNat, computes_shl.arithmeticRule rfl fun va amount => ?_⟩
  rw [aluShl_toNat]
  split
  · next h => exact shl_eq_zero _ h
  · rfl

/-- Settles O32: the two readings agree, since a byte is below `2 ^ 8`. -/
theorem shrByTheWholeAmount : Obligations.ShrByTheWholeAmount := by
  refine ⟨computes_shr.arithmeticRule rfl aluShr_toNat, computes_shr.arithmeticRule rfl fun va amount => ?_⟩
  rw [aluShr_toNat]
  split
  · next h => exact shr_eq_zero va h
  · rfl

/-- Settles O33: the second byte is an operand byte of the format and no register field of it. -/
theorem notComplementsAndIgnoresItsSecondByte : Obligations.NotComplementsAndIgnoresItsSecondByte := by
  refine ⟨decode_two (o := .not) rfl, operandFetchFaults .not, fun u s a ha => ?_, fun s a u i ha => ?_⟩
  · exact exec_first_field_invalid (i := .not a u) rfl ha s
  · obtain ⟨t, hexec, hx, hpc, hframe⟩ := exec_setX_advance (n := .not a u) rfl (aluOne_of_eq .not .not s ha rfl)
    exact ⟨t, hexec, by rw [hx, aluNot_toNat], hpc, hframe⟩

/-- Settles O34: the state after CMP differs in `flag` and `pc` alone. -/
theorem cmpSetsTheFlagToEquality : Obligations.CmpSetsTheFlagToEquality := by
  refine ⟨twoRegisterFormat (o := .cmp) rfl, fun s a b i j ha hb => ?_⟩
  exact ⟨_, aluTwo_of_eq .cmp .cmp s ha hb rfl, beq_iff_eq, rfl, fun _ => rfl, ⟨rfl, rfl, rfl⟩, fun _ => rfl⟩

end Sys2Proof.Machine

/-! # The family of 42_load_and_output: LDI, PRN and the line PRN emits

The spelling of R182 is the library's decimal spelling (`decimalDigits_eq_toDigits`), and it reads back as the value by
`spellsNumber_decimalDigits`. LDI leaves the state `exec_setX_advance` describes, PRN the state `exec_prn` names. -/

namespace Sys2Proof.Machine

open Sys2Proof.Claims

/-! ## The one-register instructions -/

/-- Format F1R has its one operand byte as a register field (R82). -/
theorem regFields_build_f1r {o : Op} (ho : o.format = .f1r) (a b : Byte) : (o.build a b).regFields = [a] := by
  cases o with
  | push | pop | prn | call | jmp | jeq | jne => rfl
  | _ => cases ho

theorem operands_f1r {o : Op} (ho : o.format = .f1r) : o.operands = 1 := by rw [Op.operands, ho]; rfl

/-- The encoding and the frame faults of the one-register instructions. -/
theorem oneRegisterFormat {o : Op} (ho : o.format = .f1r) : OneRegisterFormat o.code fun a => o.build a 0#8 := by
  have hone := operands_f1r ho
  refine ⟨decode_one hone, hone ▸ operandFetchFaults o, fun s a ha => ?_⟩
  rw [exec_first_field_invalid (regFields_build_f1r ho a 0#8) ha s, Op.op_build]

/-! ## What LDI and PRN leave behind -/

/-- LDI on a byte that names a register (R180). -/
theorem exec_ldi {a : Byte} {i : RegIdx} (h : a.toNat = i.val) (v : Byte) (s : State) :
    exec (.ldi a v) s = .next ((s.setX i v).advance .ldi) := by
  rw [exec, execLdi, withReg_of_eq h, commit_ok]

/-- PRN on a byte that names a register (R181). -/
theorem exec_prn {a : Byte} {i : RegIdx} (h : a.toNat = i.val) (s : State) :
    exec (.prn a) s = .next ((s.emit (prnLine (s.x i))).advance .prn) := by
  rw [exec, execPrn, withReg_of_eq h, commit_ok]

/-! ## The decimal spelling (R182) -/

theorem digitChar_eq {d : Nat} (h : d < 10) : digitChar d = Nat.digitChar d := by
  interval_cases d <;> rfl

/-- A digit above 0 is not written as a zero. -/
theorem digitChar_ne_zero {d : Nat} (hpos : 0 < d) (h : d < 10) : digitChar d ≠ '0' := by
  rw [digitChar_eq h, Ne, Nat.digitChar_eq_zero]
  omega

/-- The model's spelling of a byte, by the number of its digits, is the library's spelling in base 10. -/
theorem decimalDigits_eq_toDigits (v : Byte) : decimalDigits v = Nat.toDigits 10 v.toNat := by
  have hone {d : Nat} (hd : d < 10) : [digitChar d] = Nat.toDigits 10 d := by
    rw [Nat.toDigits_of_lt_base hd, digitChar_eq hd]
  have hmore {n : Nat} (hn : 10 ≤ n) : Nat.toDigits 10 (n / 10) ++ [digitChar (n % 10)] = Nat.toDigits 10 n := by
    rw [Nat.toDigits_of_base_le (by decide) hn, digitChar_eq (Nat.mod_lt n (by decide))]
  have hlt := v.isLt
  simp only [decimalDigits]
  generalize v.toNat = n at hlt ⊢
  split
  · exact hone ‹_›
  · split
    · rw [← hmore (by omega), ← hone (by omega), List.singleton_append]
    · rw [← hmore (by omega), ← hmore (by omega), Nat.div_div_eq_div_mul, ← hone (by omega)]
      rfl

/-- The first digit of a number of two or three digits is not a zero. -/
theorem decimalDigits_of_head_zero {v : Byte} (h : (decimalDigits v).head? = some '0') : decimalDigits v = ['0'] := by
  have hlt := v.isLt
  simp only [decimalDigits] at h ⊢
  split at h
  · next hn => rw [if_pos hn, Option.some.inj h]
  · split at h <;> exact absurd (Option.some.inj h) (digitChar_ne_zero (by omega) (by omega))

/-- The stream grows by the appended line and its newline. -/
theorem streamText_append_line (out : List String) (line : String) :
    streamText (out ++ [line]) = streamText out ++ line.toList ++ ['\n'] := by
  simp [streamText]

/-! ## The obligations -/

/-- Settles O35: the immediate is an operand byte of the format and no register field of it, and it is written unchanged. -/
theorem ldiLoadsTheWholeByte : Obligations.LdiLoadsTheWholeByte := by
  refine ⟨decode_two (o := .ldi) rfl, operandFetchFaults .ldi, fun v s a ha => ?_, fun s a v i ha => ?_⟩
  · exact exec_first_field_invalid (i := .ldi a v) rfl ha s
  · exact exec_setX_advance rfl (exec_ldi ha v s)

/-- Settles O36: the state after PRN differs in `out` and `pc` alone, and its line is spelled as the library spells it. -/
theorem prnEmitsTheRegister : Obligations.PrnEmitsTheRegister := by
  refine ⟨oneRegisterFormat (o := .prn) rfl, fun s a i ha => ⟨_, exec_prn ha s, ?_, rfl, fun _ => rfl, rfl, rfl, rfl,
    fun _ => rfl⟩⟩
  rw [State.advance_out, State.emit_out, prnLine, decimalDigits_eq_toDigits]

/-- Settles O37: the spelling is a number of the byte's value, made of the library's digits. -/
theorem linesAreUnsignedDecimal : Obligations.LinesAreUnsignedDecimal := by
  refine ⟨fun v => ⟨?_, ?_, fun c hc => ?_, decimalDigits_of_head_zero⟩,
    fun out v => streamText_append_line out (prnLine v)⟩
  · simp only [prnLine, String.toList_append, String.toList_ofList]
  · exact parseDigits_of_spellsNumber (spellsNumber_decimalDigits v)
  · rw [decimalDigits_eq_toDigits] at hc
    exact Nat.isDigit_of_mem_toDigits (by decide) (by decide) hc

end Sys2Proof.Machine

/-! # The family of 43_stack: PUSH, POP, and the pushes and pops of the stack pointer

A push leaves the state `s.pushed v`, and a pop of the register `i` the state `s.popped i`; both are described field by
field, and the statements are read off from there. What a pop raises is `pop_cases`, for POP and RET alike. -/

namespace Sys2Proof.Machine

open Sys2Proof.Claims

/-! ## The stack pointer -/

/-- The sentinel of the empty stack, as a number (R196). -/
theorem sp_eq_spEmpty_iff {s : State} : s.sp = Config.spEmpty ↔ s.sp.toNat = 0xF4 := BitVec.toNat_inj.symm

/-! ## The state after a push -/

@[simp] theorem State.sp_pushed_toNat (s : State) (v : Byte) : (s.pushed v).sp.toNat = s.sp.toNat - 1 := by
  have hlt := s.sp.isLt
  rw [State.pushed, State.sp_setByte, State.sp_setSp, BitVec.toNat_ofNat]
  omega

theorem State.x_pushed_other (s : State) (v : Byte) {r : RegIdx} (h : r ≠ Config.spIndex) : (s.pushed v).x r = s.x r :=
  s.x_setX_other _ h

/-- A push at its own address and at every other, with the address as a natural number (R191). -/
theorem State.byteAt_pushed_nat (s : State) (v : Byte) (k : Nat) :
    (s.pushed v).byteAt k = if k = s.sp.toNat - 1 then v else s.byteAt k :=
  State.byteAt_setByte _ _ k v

/-- What a push writes and what it leaves, wherever its instruction sends `pc` (R193, R215). -/
theorem pushFrame_pushed {s : State} (v : Byte) (h : 0 < s.sp.toNat) (p : Nat) :
    PushFrame v s ((s.pushed v).setPc p) := by
  refine ⟨fun k hk => ?_, fun k hk => ?_, ?_, fun r hr => s.x_pushed_other v hr, rfl, rfl, rfl, rfl⟩
  · rw [State.byteAt_setPc, State.byteAt_pushed v h, if_pos hk]
  · rw [State.byteAt_setPc, State.byteAt_pushed v h, if_neg hk]
  · rw [State.sp_setPc, State.sp_pushed_toNat, pushAddr_eq s h]

/-- PUSH at the bottom of memory (R193). -/
theorem exec_push_at_zero {s : State} {a : Byte} (ha : a.toNat < 8) (h : s.sp.toNat = 0) :
    exec (.push a) s = .next (s.raise (some Op.push.code) ⟨.outOfBounds, -1⟩) := by
  simp only [exec, execPush, withReg_of_eq (i := ⟨a.toNat, ha⟩) rfl, push_at_zero s _ h, commit_error]

/-! ## The state after a pop -/

/-- The state after a pop into register `i` (R192, R194), before the instruction writes `pc`. -/
def State.popped (s : State) (i : RegIdx) : State :=
  (s.setSp (BitVec.ofNat 8 (s.sp.toNat + 1))).setX i (s.byteAt s.sp.toNat)

@[simp] theorem State.x_popped_same (s : State) (i : RegIdx) : (s.popped i).x i = s.byteAt s.sp.toNat :=
  State.x_setX_same _ i _

theorem State.sp_popped {s : State} {i : RegIdx} (h : i ≠ Config.spIndex) :
    (s.popped i).sp = BitVec.ofNat 8 (s.sp.toNat + 1) :=
  (State.x_setX_other _ _ h.symm).trans (s.sp_setSp _)

theorem State.x_popped_other (s : State) {i r : RegIdx} (hi : r ≠ i) (hsp : r ≠ Config.spIndex) :
    (s.popped i).x r = s.x r :=
  (State.x_setX_other _ _ hi).trans (s.x_setX_other _ hsp)

/-- POP on a byte that names a register is its pop, committed (R194). -/
theorem exec_pop_of_eq {a : Byte} {i : RegIdx} (hi : a.toNat = i.val) (s : State) :
    exec (.pop a) s = commit .pop s ((pop s).map fun p => ((s.setSp p.2).setX i p.1).advance .pop) := by
  rw [exec, execPop, withReg_of_eq hi]
  cases pop s <;> rfl

/-- RET is its pop, committed (R216). -/
theorem exec_ret_eq (s : State) :
    exec .ret s = commit .ret s ((pop s).map fun p => (s.setSp p.2).setPc p.1.toNat) := by
  rw [exec, execRet]
  cases pop s <;> rfl

/-- POP below the top of memory and off the sentinel (R194). -/
theorem exec_pop_eq_popped {s : State} {a : Byte} {i : RegIdx} (hi : a.toNat = i.val) (hne : s.sp.toNat ≠ 0xF4)
    (htop : s.sp.toNat ≠ 255) : exec (.pop a) s = .next ((s.popped i).setPc (s.pc + 2)) := by
  have hlt := s.sp.isLt
  rw [exec_pop_of_eq hi, pop_reads s (mt sp_eq_spEmpty_iff.mp hne) (by omega)]
  rfl

/-- POP raises what its pop raises (R194). -/
theorem exec_pop_raises {s : State} {a : Byte} {e : Raise} (ha : a.toNat < 8) (h : pop s = .error e) :
    exec (.pop a) s = .next (s.raise (some Op.pop.code) e) := by
  rw [exec_pop_of_eq (i := ⟨a.toNat, ha⟩) rfl, h]
  rfl

/-- An instruction that commits its pop underflows exactly at the sentinel (R196). -/
theorem underflow_iff_of_commit_pop {op : Op} {s t : State} {f : Byte × Byte → State}
    (h : commit op s ((pop s).map f) = .next t) (hf : ∀ p, (f p).fault = none) :
    (∃ r, t.fault = some r ∧ r.kind = .stackUnderflow) ↔ s.sp.toNat = 0xF4 := by
  rw [← sp_eq_spEmpty_iff]
  rcases pop_cases s with ⟨hsp, hp⟩ | ⟨htop, hp⟩ | ⟨hne, -, hp⟩ <;> rw [hp] at h <;> cases h
  · exact iff_of_true ⟨_, rfl, rfl⟩ hsp
  · refine iff_of_false ?_ (by rw [sp_eq_spEmpty_iff]; omega)
    rintro ⟨_, ⟨⟩, ⟨⟩⟩
  · refine iff_of_false ?_ hne
    rintro ⟨_, hr, -⟩
    rw [hf] at hr
    cases hr

/-! ## A push and then a pop -/

/-- A pop takes back the byte and the stack pointer of the push before it, R7 pushed too (R193, R194). -/
theorem State.x_popped_pushed {s : State} (i : RegIdx) (h : 0 < s.sp.toNat) (r : RegIdx) :
    ((s.pushed (s.x i)).popped i).x r = s.x r := by
  by_cases hi : r = i
  · rw [hi, State.x_popped_same, State.byteAt_pushed_nat, if_pos (s.sp_pushed_toNat _)]
  by_cases hsp : r = Config.spIndex
  · have hback : s.sp.toNat - 1 + 1 = s.sp.toNat := by omega
    rw [hsp, ← State.sp_eq, State.sp_popped (hsp ▸ Ne.symm hi), State.sp_pushed_toNat, hback]
    exact BitVec.ofNat_toNat ..
  · rw [State.x_popped_other _ hi hsp, State.x_pushed_other s _ hsp]

/-! ## Many pushes, one after another -/

/-- The state after pushing a list of bytes that the stack has room for. -/
def State.pushedAll (s : State) (vs : List Byte) : State := vs.foldl State.pushed s

theorem State.pushedAll_cons (s : State) (v : Byte) (vs : List Byte) :
    s.pushedAll (v :: vs) = (s.pushed v).pushedAll vs := rfl

theorem State.sp_pushedAll_toNat (s : State) (vs : List Byte) :
    (s.pushedAll vs).sp.toNat = s.sp.toNat - vs.length := by
  induction vs generalizing s with
  | nil => rfl
  | cons v vs ih => rw [State.pushedAll_cons, ih, State.sp_pushed_toNat, List.length_cons]; omega

/-- There is room for as many bytes as there are cells below the stack pointer (R195). -/
theorem pushAll_eq_pushedAll {s : State} {vs : List Byte} (h : vs.length ≤ s.sp.toNat) :
    pushAll s vs = .ok (s.pushedAll vs) := by
  induction vs generalizing s with
  | nil => rfl
  | cons v vs ih =>
    rw [List.length_cons] at h
    simp only [pushAll, push_eq_pushed s v (by omega)]
    exact ih (by rw [State.sp_pushed_toNat]; omega)

/-- One byte more than there are cells below the stack pointer is a push from `SP = 0` (R195). -/
theorem pushAll_overflows {s : State} {vs : List Byte} (h : s.sp.toNat < vs.length) :
    pushAll s vs = .error ⟨.outOfBounds, -1⟩ := by
  induction vs generalizing s with
  | nil => exact absurd h (Nat.not_lt_zero _)
  | cons v vs ih =>
    rw [List.length_cons] at h
    by_cases h0 : s.sp.toNat = 0
    · simp only [pushAll, push_at_zero s v h0]
    · simp only [pushAll, push_eq_pushed s v (by omega)]
      exact ih (by rw [State.sp_pushed_toNat]; omega)

/-- Pushes write no cell but those between the new stack pointer and the old (R191). -/
theorem State.byteAt_pushedAll_other {s : State} {vs : List Byte} (h : vs.length ≤ s.sp.toNat) {k : Nat}
    (hk : k < s.sp.toNat - vs.length ∨ s.sp.toNat ≤ k) : (s.pushedAll vs).byteAt k = s.byteAt k := by
  induction vs generalizing s with
  | nil => rfl
  | cons v vs ih =>
    rw [List.length_cons] at h hk
    rw [State.pushedAll_cons, ih (by rw [State.sp_pushed_toNat]; omega) (by rw [State.sp_pushed_toNat]; omega),
      State.byteAt_pushed_nat, if_neg (by omega)]

/-- The bytes lie downwards from the old stack pointer in the order of their pushes: no later push overwrites one
(R191). -/
theorem State.byteAt_pushedAll {s : State} {vs : List Byte} (h : vs.length ≤ s.sp.toNat) {n : Nat} {v : Byte}
    (hn : vs[n]? = some v) : (s.pushedAll vs).byteAt (s.sp.toNat - 1 - n) = v := by
  induction vs generalizing s n with
  | nil => cases hn
  | cons w vs ih =>
    rw [List.length_cons] at h
    have hroom : vs.length ≤ (s.pushed w).sp.toNat := by rw [State.sp_pushed_toNat]; omega
    rw [State.pushedAll_cons]
    cases n with
    | zero =>
      cases hn
      rw [State.byteAt_pushedAll_other hroom (by rw [State.sp_pushed_toNat]; omega),
        State.byteAt_pushed_nat, if_pos (Nat.sub_zero _)]
    | succ n =>
      have hlater := ih hroom hn
      rwa [State.sp_pushed_toNat, show s.sp.toNat - 1 - 1 - n = s.sp.toNat - 1 - (n + 1) by omega] at hlater

/-! ## The obligations -/

/-- Settles O38: the state after PUSH is the push of the register as it was, and `pushFrame_pushed` is its frame. -/
theorem pushStoresBelowTheStackPointer : Obligations.PushStoresBelowTheStackPointer := by
  refine ⟨oneRegisterFormat (o := .push) rfl, fun s a i hi hsp => ?_, fun s a ha hsp => exec_push_at_zero ha hsp⟩
  have hpos : 0 < s.sp.toNat := Nat.pos_of_ne_zero hsp
  exact ⟨_, exec_push_eq_pushed hi hpos, pushFrame_pushed (s.x i) hpos _, rfl⟩

/-- Settles O39: the three answers of a pop, and the registers of the state it leaves. -/
theorem popReadsThenIncrements : Obligations.PopReadsThenIncrements := by
  refine ⟨oneRegisterFormat (o := .pop) rfl, fun s a i hi hne htop => ?_, fun s a ha hsp => ?_, fun s a ha hsp => ?_⟩
  · refine ⟨_, exec_pop_eq_popped hi hne htop, s.x_popped_same i, fun hi7 => ?_, fun r hr hr7 => s.x_popped_other hr hr7,
      rfl, rfl, ⟨rfl, rfl, rfl⟩, fun _ => rfl⟩
    have hlt := s.sp.isLt
    rw [State.sp_setPc, State.sp_popped hi7, BitVec.toNat_ofNat]
    omega
  · exact exec_pop_raises ha (pop_empty s (sp_eq_spEmpty_iff.mpr hsp))
  · exact exec_pop_raises ha (pop_at_top s hsp)

/-- Settles O46: the push leaves the stack pointer one lower, so the pop finds its byte there, or the sentinel. -/
theorem pushThenPopRestoresEveryRegister : Obligations.PushThenPopRestoresEveryRegister := by
  intro s a i hi hsp
  have hlt := s.sp.isLt
  have hpos : 0 < s.sp.toNat := Nat.pos_of_ne_zero hsp
  have hlower : ((s.pushed (s.x i)).setPc (s.pc + 2)).sp.toNat = s.sp.toNat - 1 := s.sp_pushed_toNat (s.x i)
  refine ⟨_, exec_push_eq_pushed hi hpos, fun hne => ?_, fun h5 => ?_⟩
  · exact ⟨_, exec_pop_eq_popped hi (by omega) (by omega), State.x_popped_pushed i hpos, rfl, rfl, rfl, rfl, rfl⟩
  · exact exec_pop_raises (RegIdx.byte_lt hi) (pop_empty _ (sp_eq_spEmpty_iff.mpr (by omega)))

/-- Settles O48: 244 cells lie below the sentinel, and each push takes one. -/
theorem theStackHolds244Bytes : Obligations.TheStackHolds244Bytes := by
  intro s vs hsp
  refine ⟨fun h => ?_, fun h => pushAll_overflows (by omega)⟩
  have hroom : vs.length ≤ s.sp.toNat := by omega
  refine ⟨_, pushAll_eq_pushedAll hroom, by rw [State.sp_pushedAll_toNat, hsp], fun n v hn => ?_, fun k hk => ?_⟩
  · have hbyte := State.byteAt_pushedAll hroom hn
    rwa [hsp] at hbyte
  · exact State.byteAt_pushedAll_other hroom (by rwa [hsp])

/-- Settles O49: POP of a valid register and RET commit the same pop. -/
theorem underflowExactlyAtTheSentinel : Obligations.UnderflowExactlyAtTheSentinel := by
  refine fun s hs => ⟨fun a t ha h => ?_, fun t h => ?_⟩
  · rw [exec_pop_of_eq (i := ⟨a.toNat, ha⟩) rfl] at h
    exact underflow_iff_of_commit_pop h fun _ => hs
  · rw [exec_ret_eq] at h
    exact underflow_iff_of_commit_pop h fun _ => hs

end Sys2Proof.Machine

/-! # The family of 44_control: HLT, the jumps, CALL and RET

HLT and the jumps write no register, no byte and no line; `exec_jmp`, `exec_jeq` and `exec_jne` name the `pc` each jump
leaves. A CALL leaves the pushed state `s.pushed v` at its target, a RET the state `s.returned`. The return after a call
is two facts: the pushed byte lies at the new stack pointer (`State.byteAt_sp_pushed`), and a RET reads it there. -/

namespace Sys2Proof.Machine

open Sys2Proof.Claims

/-! ## The jumps -/

/-- Moving `pc` changes nothing else (R211). -/
theorem transferFrame_setPc (s : State) (p : Nat) : TransferFrame s (s.setPc p) :=
  ⟨fun _ => rfl, rfl, ⟨rfl, rfl, rfl⟩, fun _ => rfl⟩

/-- JMP on a byte that names a register (R212). -/
theorem exec_jmp {a : Byte} {i : RegIdx} (hi : a.toNat = i.val) (s : State) :
    exec (.jmp a) s = .next (s.setPc (s.x i).toNat) := by
  rw [exec, execJmp, withReg_of_eq hi, commit_ok]

/-- JEQ on a byte that names a register (R213). -/
theorem exec_jeq {a : Byte} {i : RegIdx} (hi : a.toNat = i.val) (s : State) :
    exec (.jeq a) s = .next (s.setPc (if s.flag then (s.x i).toNat else s.pc + 2)) := by
  rw [exec, execJeq, withReg_of_eq hi, commit_ok, apply_ite s.setPc]
  rfl

/-- JNE on a byte that names a register (R214). -/
theorem exec_jne {a : Byte} {i : RegIdx} (hi : a.toNat = i.val) (s : State) :
    exec (.jne a) s = .next (s.setPc (if s.flag then s.pc + 2 else (s.x i).toNat)) := by
  rw [exec, execJne, withReg_of_eq hi, commit_ok, apply_ite s.setPc]
  rfl

/-! ## What CALL raises -/

/-- A return address that does not fit a byte is found before the push (R215). -/
theorem exec_call_return_too_high {s : State} {a : Byte} (ha : a.toNat < 8) (h : 255 < s.pc + 2) :
    exec (.call a) s = .next (s.raise (some Op.call.code) ⟨.outOfBounds, (s.pc + 2 : Nat)⟩) := by
  have hr : nextPc .call s = s.pc + 2 := rfl
  simp only [exec, execCall, withReg_of_eq (i := ⟨a.toNat, ha⟩) rfl, hr, if_pos h, commit_error]

/-- CALL at the bottom of memory, with a return address that fits a byte (R215). -/
theorem exec_call_at_zero {s : State} {a : Byte} (ha : a.toNat < 8) (hpc : s.pc + 2 ≤ 255) (h : s.sp.toNat = 0) :
    exec (.call a) s = .next (s.raise (some Op.call.code) ⟨.outOfBounds, -1⟩) := by
  have hr : nextPc .call s = s.pc + 2 := rfl
  simp only [exec, execCall, withReg_of_eq (i := ⟨a.toNat, ha⟩) rfl, hr, if_neg hpc.not_gt, push_at_zero s _ h,
    commit_error]

/-! ## RET -/

/-- The state after a RET that raises nothing (R216). -/
def State.returned (s : State) : State :=
  (s.setSp (BitVec.ofNat 8 (s.sp.toNat + 1))).setPc (s.byteAt s.sp.toNat).toNat

@[simp] theorem State.returned_pc (s : State) : s.returned.pc = (s.byteAt s.sp.toNat).toNat := rfl

@[simp] theorem State.sp_returned (s : State) : s.returned.sp = BitVec.ofNat 8 (s.sp.toNat + 1) := s.sp_setSp _

theorem State.x_returned_other (s : State) {r : RegIdx} (h : r ≠ Config.spIndex) : s.returned.x r = s.x r :=
  s.x_setX_other _ h

/-- RET below the top of memory and off the sentinel (R216). -/
theorem exec_ret_eq_returned {s : State} (hne : s.sp.toNat ≠ 0xF4) (htop : s.sp.toNat ≠ 255) :
    exec .ret s = .next s.returned := by
  have hlt := s.sp.isLt
  rw [exec_ret_eq, pop_reads s (mt sp_eq_spEmpty_iff.mp hne) (by omega)]
  rfl

/-- RET raises what its pop raises (R216). -/
theorem exec_ret_raises {s : State} {e : Raise} (h : pop s = .error e) :
    exec .ret s = .next (s.raise (some Op.ret.code) e) := by
  rw [exec_ret_eq, h]
  rfl

/-- A pushed byte lies at the new stack pointer (R191). -/
theorem State.byteAt_sp_pushed (s : State) (v : Byte) : (s.pushed v).byteAt (s.pushed v).sp.toNat = v := by
  rw [State.byteAt_pushed_nat, if_pos (s.sp_pushed_toNat v)]

/-! ## The obligations -/

/-- Settles O41: the state after JMP differs in `pc` alone. -/
theorem jmpGoesToTheRegister : Obligations.JmpGoesToTheRegister :=
  ⟨oneRegisterFormat (o := .jmp) rfl, fun s _ _ hi => ⟨_, exec_jmp hi s, rfl, transferFrame_setPc s _⟩⟩

/-- Settles O42: the flag chooses the new `pc`, after the register check. -/
theorem jeqJumpsIffTheFlagIsTrue : Obligations.JeqJumpsIffTheFlagIsTrue := by
  refine ⟨oneRegisterFormat (o := .jeq) rfl, fun s a i hi => ⟨_, exec_jeq hi s, ?_, ?_, transferFrame_setPc s _⟩⟩
  · exact fun htrue => if_pos htrue
  · exact fun hfalse => if_neg (ne_true_of_eq_false hfalse)

/-- Settles O43: the flag chooses the new `pc`, after the register check. -/
theorem jneJumpsIffTheFlagIsFalse : Obligations.JneJumpsIffTheFlagIsFalse := by
  refine ⟨oneRegisterFormat (o := .jne) rfl, fun s a i hi => ⟨_, exec_jne hi s, ?_, ?_, transferFrame_setPc s _⟩⟩
  · exact fun hfalse => if_neg (ne_true_of_eq_false hfalse)
  · exact fun htrue => if_pos htrue

/-- Settles O44: the state after CALL is the push of the return address, and `pushFrame_pushed` is its frame. -/
theorem callPushesTheReturnAddress : Obligations.CallPushesTheReturnAddress := by
  refine ⟨oneRegisterFormat (o := .call) rfl, fun s a i hi hpc hsp => ?_,
    fun s a ha hpc => exec_call_return_too_high ha hpc, fun s a ha hpc hsp => exec_call_at_zero ha hpc hsp⟩
  have hpos : 0 < s.sp.toNat := Nat.pos_of_ne_zero hsp
  exact ⟨_, exec_call_eq_pushed hi hpc hpos, pushFrame_pushed _ hpos _, rfl⟩

/-- Settles O45: the three answers of a pop, and the state a RET leaves. -/
theorem retJumpsToThePoppedByte : Obligations.RetJumpsToThePoppedByte := by
  refine ⟨decode_zero (o := .ret) rfl, fun s hne htop => ?_, fun s hsp => ?_, fun s hsp => ?_⟩
  · refine ⟨_, exec_ret_eq_returned hne htop, rfl, ?_, fun r hr => s.x_returned_other hr, rfl, ⟨rfl, rfl, rfl⟩,
      fun _ => rfl⟩
    have hlt := s.sp.isLt
    rw [State.sp_returned, BitVec.toNat_ofNat]
    omega
  · exact exec_ret_raises (pop_empty s (sp_eq_spEmpty_iff.mpr hsp))
  · exact exec_ret_raises (pop_at_top s hsp)

/-- Settles O47: the CALL leaves its return address at a stack pointer one lower, where the RET finds it. -/
theorem callThenRetReturnsAfterTheCall : Obligations.CallThenRetReturnsAfterTheCall := by
  intro s a i hi hpc hsp hne
  have hlt := s.sp.isLt
  have hpos : 0 < s.sp.toNat := Nat.pos_of_ne_zero hsp
  refine ⟨_, exec_call_eq_pushed hi hpc hpos, fun u husp hubyte => ?_⟩
  have hlower : u.sp.toNat = s.sp.toNat - 1 := by rw [husp, State.sp_setPc, State.sp_pushed_toNat]
  have hreturn : u.byteAt u.sp.toNat = BitVec.ofNat 8 (s.pc + 2) := hubyte.trans (s.byteAt_sp_pushed _)
  refine ⟨_, exec_ret_eq_returned (by omega) (by omega), ?_, ?_⟩
  · rw [State.returned_pc, hreturn, BitVec.toNat_ofNat]
    omega
  · have hback : u.sp.toNat + 1 = s.sp.toNat := by omega
    rw [State.sp_returned, hback]
    exact BitVec.ofNat_toNat ..

/-- Settles O40: the state after HLT differs in `halted` and `pc` alone, and its terminal check stops the next step. -/
theorem hltHalts : Obligations.HltHalts := by
  refine ⟨decode_zero (o := .hlt) rfl, fun s => ⟨s.setHalted.advance .hlt, rfl, rfl, ?_, rfl, fun _ => rfl, rfl, rfl, rfl,
    fun _ => rfl, ?_⟩⟩
  · exact State.status_halted.mpr rfl
  · exact step_halted rfl

end Sys2Proof.Machine

/-! # The family of 60_exceptions: what a faulting step leaves, what it records, and the order of the checks

A faulting step is a raise of the fetch or of the fetched instruction (`step_fault_cases`), and a raise writes the record
alone. The record is read off from what raised it (`fetch_error_taxonomyRow`, `Raises.taxonomyRow`). For the order of R244
the list `firstFault` is walked check by check beside the step (`reports_firstFault`). -/

namespace Sys2Proof

/-! ## The register fields of a format -/

/-- Every format with operand bytes has `a` as its first register field (R82). -/
theorem regFields_build_first {o : Op} (ho : o.format ≠ .f0) (a b : Byte) :
    ∃ after, (o.build a b).regFields = a :: after := by
  cases o with
  | hlt | ret => exact absurd rfl ho
  | _ => exact ⟨_, rfl⟩

/-- The register fields are valid where `a` is, in a format that has one, and `b` is, in the format that has two (R82). -/
theorem regFields_build_valid {o : Op} {a b : Byte} (ha : o.format ≠ .f0 → a.toNat < 8)
    (hb : o.format = .f2rr → b.toNat < 8) : ∀ w ∈ (o.build a b).regFields, w.toNat < 8 := by
  cases o with
  | hlt | ret => nofun
  | push | pop | prn | call | jmp | jeq | jne | not | ldi => exact List.forall_mem_singleton.mpr (ha nofun)
  | _ => exact List.forall_mem_cons.mpr ⟨ha nofun, List.forall_mem_singleton.mpr (hb rfl)⟩

end Sys2Proof

namespace Sys2Proof.Machine

open Sys2Proof.Claims

/-! ## What a faulting step does -/

/-- A step that leaves a fault record raised it, in its fetch or in the instruction it fetched (R242). -/
theorem step_fault_cases {s t : State} {r : FaultRecord} (h : step s = .next t) (hr : t.fault = some r) :
    s.status = .running ∧ ∃ op e, t = s.raise op e ∧
      (fetch s = .error ⟨op, e⟩ ∨ ∃ i : Instr, fetch s = .ok i ∧ op = some i.op.code ∧ Raises s i e) := by
  obtain ⟨hrun, ⟨f, hf, rfl⟩ | ⟨i, hi, ⟨e, he, rfl⟩ | heff⟩⟩ := step_next_cases h
  · exact ⟨hrun, _, _, rfl, .inl hf⟩
  · exact ⟨hrun, _, _, rfl, .inr ⟨i, hi, rfl, he⟩⟩
  · rw [heff.fault_eq, (State.status_running.mp hrun).2] at hr
    cases hr

/-! ## The rows of R240 -/

/-- A fault of the fetch is the opcode fetch, an operand byte past the end of memory, or an illegal opcode (R240). -/
theorem fetch_error_taxonomyRow {s : State} {f : FetchFault} (h : fetch s = .error f) :
    TaxonomyRow s f.raised.kind f.raised.detail := by
  rcases fetch_cases s with ⟨hp, h'⟩ | ⟨hp, hc, h'⟩ | ⟨o, hp, hc, hl, h'⟩ | ⟨_, -, -, h'⟩ <;> rw [h'] at h <;> cases h
  · exact .inl ⟨hp, rfl⟩
  · exact ⟨hp, illegalCode_iff_ofCode.mpr hc, rfl⟩
  · unfold Op.length at hl
    exact .inr (.inl ⟨o, 256 - s.pc, hc, by omega, by omega, by omega, by omega, by simp only; omega⟩)

/-- What a fetched instruction raises is in the row of R240 for what it did. -/
theorem Raises.taxonomyRow {s : State} {i : Instr} {e : Raise} (h : Raises s i e) (hfetch : fetch s = .ok i) :
    TaxonomyRow s e.kind e.detail := by
  have hi : Fetches s i := fetches_iff_fetch.mpr hfetch
  have hend := fetch_ok_end_le hfetch
  cases h with
  | register hf hbefore h8 => exact ⟨_, _, _, _, hi, hf, hbefore, h8, rfl⟩
  | divisor ha hb hzero => exact ⟨_, _, _, hi, ha, hb, congrArg BitVec.toNat hzero, rfl⟩
  | popEmpty ha hsp => exact ⟨.inr ⟨_, ha, hi⟩, sp_eq_spEmpty_iff.mp hsp, rfl⟩
  | retEmpty hsp => exact ⟨.inl hi, sp_eq_spEmpty_iff.mp hsp, rfl⟩
  | popTop ha hsp => exact .inr (.inr (.inr (.inl ⟨.inr ⟨_, ha, hi⟩, hsp, rfl⟩)))
  | retTop hsp => exact .inr (.inr (.inr (.inl ⟨.inl hi, hsp, rfl⟩)))
  | pushZero ha hsp => exact .inr (.inr (.inl ⟨_, ha, .inl hi, hsp, rfl⟩))
  | callZero ha hpc hsp => exact .inr (.inr (.inl ⟨_, ha, .inr ⟨hi, hpc⟩, hsp, rfl⟩))
  | callReturn ha hpc =>
    have hpc : s.pc = 254 := by
      have : s.pc + 2 ≤ 256 := hend
      omega
    exact .inr (.inr (.inr (.inr ⟨_, ha, hi, hpc, by simp only [hpc]; rfl⟩)))

/-- The kinds a step may record, each with its code (R240). -/
theorem FaultRecord.Legal.code_mem {r : FaultRecord} (h : r.Legal) :
    (r.kind.code, r.kind) ∈
      ([(1, .outOfBounds), (2, .invalidRegister), (3, .illegalInstruction), (5, .divisionByZero), (6, .stackUnderflow)] :
        List (Nat × FaultKind)) := by
  obtain ⟨kind, _, _, _⟩ := r
  cases kind with
  | unsupportedOperation | loadError => exact h.elim
  | _ => simp [FaultKind.code]

/-! ## The execute-phase checks of R244 -/

/-- A fetched instruction is built from the two bytes behind its opcode (R81, R114). -/
theorem build_of_fetch {s : State} {i : Instr} (h : fetch s = .ok i) :
    i.op.build (s.byteAt (s.pc + 1)) (s.byteAt (s.pc + 2)) = i := by
  have hin := fetch_ok_end_le h
  unfold Op.length at hin
  exact Except.ok.inj ((fetch_operands_inside (fetch_ok_byteAt h) (by omega)).symm.trans h)

/-- With its register fields valid, an instruction raises nothing but what the execute-phase checks find. -/
theorem Raises.executeFault_eq {s : State} {i : Instr} {e : Raise} (h : Raises s i e) (hfetch : fetch s = .ok i)
    (hok : ∀ w ∈ i.regFields, w.toNat < 8) : executeFault s i.op (s.byteAt (s.pc + 2)) = some e := by
  have hbuild := build_of_fetch hfetch
  have hend := fetch_ok_end_le hfetch
  cases h with
  | @register _ _ _ v hf _ h8 =>
    have := hok v (by simp [hf])
    omega
  | divisor _ hb hzero =>
    injection hbuild with _ hb'
    rw [hb']
    simp [Instr.op, executeFault, regOf_of_eq s hb, hzero, hb]
  | popEmpty _ hsp | retEmpty hsp => exact if_pos (sp_eq_spEmpty_iff.mp hsp)
  | popTop _ hsp | retTop hsp => simp [Instr.op, executeFault, hsp]
  | pushZero _ hsp => exact if_pos hsp
  | callReturn _ hpc =>
    have hpc : s.pc + 2 = 256 := by
      have : s.pc + 2 ≤ 256 := hend
      omega
    rw [hpc]
    exact if_pos hpc
  | callZero _ hpc hsp =>
    have hpc : s.pc + 2 ≠ 256 := by omega
    simp [Instr.op, executeFault, hpc, hsp]

/-- What the check of POP and RET finds, their pop raises (R192). -/
theorem pop_of_executeFault {s : State} {b : Byte} {e : Raise} (h : executeFault s .pop b = some e) :
    pop s = .error e := by
  simp only [executeFault] at h
  split at h
  · next hsp => cases h; exact pop_empty s (sp_eq_spEmpty_iff.mpr hsp)
  · split at h
    · next hsp => cases h; exact pop_at_top s hsp
    · cases h

/-- What the execute-phase checks find, an instruction with valid register fields raises. -/
theorem exec_of_executeFault {s : State} {o : Op} {a b : Byte} {e : Raise} (hend : s.pc + o.operands < 256)
    (hok : ∀ w ∈ (o.build a b).regFields, w.toNat < 8) (h : executeFault s o b = some e) :
    exec (o.build a b) s = .next (s.raise (some o.code) e) := by
  cases o with
  | div =>
    obtain ⟨ha, hb⟩ : a.toNat < 8 ∧ b.toNat < 8 := by simpa [Op.build, Instr.regFields] using hok
    obtain ⟨hzero, ⟨⟩⟩ := Option.ite_none_right_eq_some.mp h
    rw [regOf_of_eq s (i := ⟨b.toNat, hb⟩) rfl] at hzero
    have hvb : s.x ⟨b.toNat, hb⟩ = 0#8 := BitVec.eq_of_toNat_eq hzero
    exact aluTwo_raises .div .div (i := ⟨a.toNat, ha⟩) (j := ⟨b.toNat, hb⟩) s rfl rfl (if_pos hvb)
  | pop => exact exec_pop_raises (hok a List.mem_cons_self) (pop_of_executeFault h)
  | ret => exact exec_ret_raises (pop_of_executeFault (b := b) h)
  | push =>
    obtain ⟨hsp, ⟨⟩⟩ := Option.ite_none_right_eq_some.mp h
    exact exec_push_at_zero (hok a List.mem_cons_self) hsp
  | call =>
    have ha := hok a List.mem_cons_self
    simp only [executeFault] at h
    split at h
    · next hpc =>
      cases h
      have hraise := exec_call_return_too_high ha (show 255 < s.pc + 2 by omega)
      rwa [hpc] at hraise
    · next hpc =>
      obtain ⟨hsp, ⟨⟩⟩ := Option.ite_none_right_eq_some.mp h
      have : s.pc + 1 < 256 := hend
      exact exec_call_at_zero ha (by omega) hsp
  | _ => cases h

/-! ## The order of R244 -/

/-- A step from `s` leaves exactly the record found, or a state with none where none was found. -/
def Reports (s : State) : Option FaultRecord → Prop
  | some r => step s = .next { s with fault := some r }
  | none => ∃ t, step s = .next t ∧ t.fault = none

/-- Where the execute-phase checks find nothing in a fetched instruction with valid register fields, the step leaves no
fault. -/
theorem step_of_executeFault_none {s : State} {i : Instr} (hrun : s.status = .running) (hfetch : fetch s = .ok i)
    (hok : ∀ w ∈ i.regFields, w.toNat < 8) (h : executeFault s i.op (s.byteAt (s.pc + 2)) = none) :
    ∃ t, step s = .next t ∧ t.fault = none := by
  rw [step_runs hrun hfetch]
  rcases exec_cases i s with ⟨e, he, -⟩ | ⟨t, heff, hexec⟩
  · rw [he.executeFault_eq hfetch hok] at h
    cases h
  · exact ⟨t, hexec, heff.fault_eq.trans (State.status_running.mp hrun).2⟩

/-- The checks of R244, one after another, decide a Running step. -/
theorem reports_firstFault {s : State} (hrun : s.status = .running) : Reports s (firstFault s) := by
  simp only [firstFault]
  split
  · next hpc => exact step_fetch_fault hrun (fetch_pc_outside hpc)
  next hpc =>
  have hpc : s.pc < 256 := by omega
  cases ho : Op.ofCode (s.byteAt s.pc) with
  | none => exact step_fetch_fault hrun (fetch_illegal hpc ho)
  | some o =>
    have hc := Op.ofCode_eq_some.mp ho
    have hle := o.operands_le
    simp only [hc]
    split
    · next h1 => exact operandFetchFaults o s hrun hpc hc 1 (by omega) h1.1 hpc h1.2
    next h1 =>
    split
    · next h2 => exact operandFetchFaults o s hrun hpc hc 2 (by omega) h2.1.ge (by omega) h2.2
    next h2 =>
    have hin : s.pc + o.operands < 256 := by omega
    have hfetch := fetch_operands_inside hc hin
    have hstep := step_runs hrun hfetch
    split
    · next ha =>
      obtain ⟨after, hf⟩ := regFields_build_first ha.1 (s.byteAt (s.pc + 1)) (s.byteAt (s.pc + 2))
      rw [exec_first_field_invalid hf ha.2, Op.op_build] at hstep
      exact hstep
    next ha =>
    have ha8 (hf : o.format ≠ .f0) : (s.byteAt (s.pc + 1)).toNat < 8 := Nat.lt_of_not_le fun h8 => ha ⟨hf, h8⟩
    split
    · next hb =>
      have hf := regFields_build_f2rr hb.1 (s.byteAt (s.pc + 1)) (s.byteAt (s.pc + 2))
      rw [exec_second_field_invalid hf (ha8 (by simp [hb.1])) hb.2, Op.op_build] at hstep
      exact hstep
    next hb =>
    have hok := regFields_build_valid ha8 fun hf => Nat.lt_of_not_le fun h8 => hb ⟨hf, h8⟩
    split
    · next e he =>
      rw [exec_of_executeFault hin hok he] at hstep
      exact hstep
    · next he => exact step_of_executeFault_none hrun hfetch hok (by rwa [Op.op_build])

/-! ## The obligations -/

/-- Settles O21: a faulting step is a raise in a Running state, and a raise writes the record alone. -/
theorem faultsArePrecise : Obligations.FaultsArePrecise := by
  intro s t r h hr
  obtain ⟨hrun, op, e, rfl, -⟩ := step_fault_cases h hr
  obtain ⟨hhalted, hnone⟩ := State.status_running.mp hrun
  exact ⟨hnone, fun _ => rfl, fun _ => rfl, rfl, rfl, rfl, hhalted, hhalted, State.status_faulted.mpr ⟨hhalted, r, hr⟩,
    step_faulted (s := s.raise op e) hhalted hr⟩

/-- Settles O22: the record is legal and in its row of R240, whether the fetch raised it or the instruction did. -/
theorem faultRecordsHoldTheirContext : Obligations.FaultRecordsHoldTheirContext := by
  intro s t r h hr
  obtain ⟨hrun, op, e, rfl, hraised⟩ := step_fault_cases h hr
  have hopcode := fun hpc => step_record_opcode hpc h hr
  cases hr
  have hlegal : FaultRecord.Legal ⟨e.kind, s.pc, op, e.detail⟩ := by
    obtain hf | ⟨i, -, rfl, he⟩ := hraised
    · exact fetch_error_legal hf s.pc
    · exact he.legal s.pc
  have hrow : TaxonomyRow s e.kind e.detail := by
    obtain hf | ⟨i, hi, -, he⟩ := hraised
    · exact fetch_error_taxonomyRow hf
    · exact he.taxonomyRow hi
  refine ⟨rfl, fun hpc => ?_, hopcode, hlegal, hrow, hlegal.code_mem⟩
  rw [fetch_pc_outside hpc] at hraised
  obtain h | ⟨_, h, -⟩ := hraised <;> cases h
  exact ⟨rfl, rfl⟩

/-- Settles O23: `Reports` says both clauses of what the list of checks found. -/
theorem firstFaultInOrderIsReported : Obligations.FirstFaultInOrderIsReported := by
  intro s hrun
  have hreports := reports_firstFault hrun
  refine ⟨fun r hr => ?_, fun hnone => ?_⟩
  · rwa [hr] at hreports
  · rwa [hnone] at hreports

end Sys2Proof.Machine

/-! # The family of 70_reset_and_hazards: reset, and the loading of the program image

A line of the image is read through its token (`trim_dropComment_token`), a token through the numbers of the base 2
(`SpellsNumber`). A load of lines that it accepts is the placing of their bytes (`loadLines_append`): the LoadError of a
later line, and the launch state of an image, both follow from that. -/

namespace Sys2Proof.Machine

open Sys2Proof.Claims

/-! ## Tokens of base 2 -/

theorem digitValue_two_eq_none {c : Char} (h0 : c ≠ '0') (h1 : c ≠ '1') : digitValue 2 c = none := by
  have h0 : c.toNat ≠ 48 := fun h => h0 (Char.toNat_inj.mp h)
  have h1 : c.toNat ≠ 49 := fun h => h1 (Char.toNat_inj.mp h)
  simp only [digitValue]
  refine if_neg ?_
  split_ifs <;> omega

/-- A character that is no digit of the base makes the whole string none of its numbers (R273 a). -/
theorem parseDigits_eq_none {base : Nat} {cs : List Char} {c : Char} (hm : c ∈ cs) (hc : digitValue base c = none) :
    parseDigits base cs = none := by
  obtain ⟨before, after, rfl⟩ := List.append_of_mem hm
  have hdigits : digitsFrom base 0 (before ++ c :: after) = none := by
    simp [digitsFrom_append, digitsFrom, hc]
  cases before <;> exact hdigits

theorem binaryValue_append_digit (token : List Char) (c : Char) :
    binaryValue (token ++ [c]) = 2 * binaryValue token + if c = '1' then 1 else 0 := List.foldl_append

/-- A non-empty string of `0` and `1` is a number of base 2 (R272). -/
theorem spellsNumber_binaryValue {token : List Char} (hne : token ≠ []) (h : ∀ c ∈ token, c = '0' ∨ c = '1') :
    SpellsNumber 2 (binaryValue token) token := by
  induction token using List.reverseRecOn with
  | nil => exact absurd rfl hne
  | append_singleton token c ih =>
    obtain ⟨htoken, hc⟩ := List.forall_mem_append.mp h
    have hdigit : (if c = '1' then 1 else 0) < 2 ∧ SpellsDigit (if c = '1' then 1 else 0) c := by
      obtain rfl | rfl := List.forall_mem_singleton.mp hc <;> exact ⟨by decide, .inl rfl⟩
    rw [binaryValue_append_digit]
    by_cases hnil : token = []
    · subst hnil
      simpa [binaryValue] using SpellsNumber.one hdigit.1 hdigit.2
    · exact .more (ih hnil htoken) hdigit.1 hdigit.2

/-- The eight digits of a byte spell its value (R93). -/
theorem spellsNumber_binaryDigits (v : Byte) : SpellsNumber 2 v.toNat (binaryDigits v) := by
  have hvalue : binaryValue (binaryDigits v) = v.toNat := by
    have hlt := v.isLt
    have hbit (k : Nat) : (if (if v.getLsbD k then '1' else '0') = '1' then 1 else 0) = v.toNat / 2 ^ k % 2 := by
      rw [BitVec.getLsbD, Nat.testBit_eq_decide_div_mod_eq]
      obtain h | h := Nat.mod_two_eq_zero_or_one (v.toNat / 2 ^ k) <;> simp [h]
    simp only [binaryValue, binaryDigits, List.map_cons, List.map_nil, List.foldl_cons, List.foldl_nil, hbit]
    omega
  rw [← hvalue]
  refine spellsNumber_binaryValue (by simp [binaryDigits]) fun c hc => ?_
  obtain ⟨k, -, rfl⟩ := List.mem_map.mp hc
  cases v.getLsbD k with
  | true => exact .inr rfl
  | false => exact .inl rfl

/-! ## One line of the image -/

/-- What is left of a line when its comment and the blanks around its token are gone (R272). -/
theorem trim_dropComment_token {left token right rest : List Char} (hl : Blanks left) (hr : Blanks right)
    (ht : Trimmed token) (hcomment : '#' ∉ token) (hrest : rest = [] ∨ ∃ cs, rest = '#' :: cs) :
    trim (dropComment (left ++ token ++ right ++ rest)) = token := by
  have hnot : '#' ∉ left ++ token ++ right := by
    simp [notMem_blanks hl (c := '#') rfl, notMem_blanks hr (c := '#') rfl, hcomment]
  rw [dropComment_append hnot hrest, trim_blanks hl ht hr]

theorem readLine_of_trim_nil {l : List Char} (h : trim (dropComment l) = []) : readLine l = .skipped := by
  simp only [readLine, h]

theorem readLine_of_number {l token : List Char} {n : Nat} (h : trim (dropComment l) = token)
    (hn : SpellsNumber 2 n token) : readLine l = if n < 256 then .byte (BitVec.ofNat 8 n) else .malformed := by
  obtain ⟨c, cs, rfl⟩ := List.exists_cons_of_ne_nil (spellsNumber_digits hn).1
  simp only [readLine, h, parseDigits_of_spellsNumber hn]

theorem readLine_of_not_digits {l token : List Char} (h : trim (dropComment l) = token) {c : Char} (hc : c ∈ token)
    (h01 : c ≠ '0' ∧ c ≠ '1') : readLine l = .malformed := by
  obtain ⟨d, ds, rfl⟩ := List.exists_cons_of_ne_nil (List.ne_nil_of_mem hc)
  simp only [readLine, h, parseDigits_eq_none hc (digitValue_two_eq_none h01.1 h01.2)]

/-- The literal of a byte is a line that holds it (R93, R272). -/
theorem readLine_binaryDigits (v : Byte) : readLine (binaryDigits v) = .byte v := by
  have hv := spellsNumber_binaryDigits v
  have hword := isWord_of_spellsNumber hv
  have htrim := trim_dropComment_token blanks_nil blanks_nil hword.trimmed (hword.notMem (c := '#') rfl) (.inl rfl)
  simp only [List.nil_append, List.append_nil] at htrim
  rw [readLine_of_number htrim hv, if_pos v.isLt, BitVec.ofNat_toNat, BitVec.setWidth_eq]

/-! ## The lines of an image -/

/-- The bytes that lines hold, in order. -/
def imageBytes (ls : List (List Char)) : List Byte :=
  ls.filterMap fun l => match readLine l with
    | .byte v => some v
    | _ => none

theorem imageBytes_cons_byte {l : List Char} {v : Byte} (h : readLine l = .byte v) (ls : List (List Char)) :
    imageBytes (l :: ls) = v :: imageBytes ls := by simp [imageBytes, h]

theorem imageBytes_cons_skipped {l : List Char} (h : readLine l = .skipped) (ls : List (List Char)) :
    imageBytes (l :: ls) = imageBytes ls := by simp [imageBytes, h]

theorem length_imageBytes (ls : List (List Char)) : (imageBytes ls).length = bytesIn ls := by
  induction ls with
  | nil => rfl
  | cons l ls ih =>
    unfold imageBytes bytesIn at ih ⊢
    cases h : readLine l <;> simp [h, ih]

/-- The lines of an image text: its literals, and nothing behind the last newline. -/
theorem splitAt_imageText (bytes : List Byte) :
    splitAt '\n' (imageText bytes) = bytes.map binaryDigits ++ [[]] := by
  induction bytes with
  | nil => rfl
  | cons v vs ih =>
    have hline : '\n' ∉ binaryDigits v := (isWord_of_spellsNumber (spellsNumber_binaryDigits v)).notMem rfl
    have htext : imageText (v :: vs) = binaryDigits v ++ ['\n'] ++ imageText vs := rfl
    rw [htext, splitAt_append, splitAt_of_notMem hline, ih]
    rfl

theorem noneMalformed_imageText (bytes : List Byte) : noneMalformed (splitAt '\n' (imageText bytes)) := by
  rw [splitAt_imageText]
  refine List.forall_mem_append.mpr ⟨List.forall_mem_map.mpr fun v _ => ?_, List.forall_mem_singleton.mpr nofun⟩
  rw [readLine_binaryDigits]
  nofun

theorem imageBytes_imageText (bytes : List Byte) : imageBytes (splitAt '\n' (imageText bytes)) = bytes := by
  rw [splitAt_imageText]
  induction bytes with
  | nil => rfl
  | cons v vs ih => exact (imageBytes_cons_byte (readLine_binaryDigits v) _).trans (congrArg _ ih)

/-! ## The load -/

theorem placeBytes_cons (s : State) {addr : Nat} (h : addr < 256) (b : Byte) (bs : List Byte) :
    placeBytes s addr (b :: bs) = placeBytes (s.setByte addr b) (addr + 1) bs := by
  rw [placeBytes, if_pos (memSize_eq ▸ h)]

/-- Placed bytes are read at their addresses, and every other cell is as before. -/
theorem byteAt_placeBytes {s : State} {addr : Nat} {bs : List Byte} (h : addr + bs.length ≤ 256) (k : Nat) :
    (placeBytes s addr bs).byteAt k = if k < addr then s.byteAt k else bs.getD (k - addr) (s.byteAt k) := by
  induction bs generalizing s addr with
  | nil => simp [placeBytes]
  | cons b bs ih =>
    rw [List.length_cons] at h
    rw [placeBytes_cons s (by omega), ih (by omega), State.byteAt_setByte]
    rcases Nat.lt_trichotomy k addr with hk | rfl | hk
    · simp [hk, hk.ne, Nat.lt_succ_of_lt hk]
    · simp
    · have hoff : k - addr = k - (addr + 1) + 1 := by omega
      simp [hoff, hk.ne', hk.not_gt, Nat.not_lt.mpr hk]

/-- Lines that are not malformed and whose bytes have cells are passed, their bytes placed (R271). -/
theorem loadLines_append {s : State} {addr line : Nat} {ls : List (List Char)} (hok : noneMalformed ls)
    (hroom : addr + (imageBytes ls).length ≤ 256) (rest : List (List Char)) :
    loadLines s addr line (ls ++ rest) =
      loadLines (placeBytes s addr (imageBytes ls)) (addr + (imageBytes ls).length) (line + ls.length) rest := by
  induction ls generalizing s addr line with
  | nil => rfl
  | cons l ls ih =>
    obtain ⟨hl, hls⟩ := List.forall_mem_cons.mp hok
    have hcount : line + (l :: ls).length = line + 1 + ls.length := by rw [List.length_cons]; omega
    rw [List.cons_append, hcount]
    cases h : readLine l with
    | malformed => exact absurd h hl
    | skipped =>
      rw [imageBytes_cons_skipped h] at hroom ⊢
      rw [loadLines_skipped _ _ _ _ h, ih hls hroom]
    | byte v =>
      rw [imageBytes_cons_byte h, List.length_cons] at hroom ⊢
      have hnext : addr + ((imageBytes ls).length + 1) = addr + 1 + (imageBytes ls).length := by omega
      rw [loadLines_byte _ _ _ h (by omega), ih hls (by omega), placeBytes_cons s (by omega), hnext]

/-- A load with no line to name leaves the bytes of its lines in memory (R271). -/
theorem loadLines_ok {s : State} {addr line : Nat} {ls : List (List Char)} (hok : noneMalformed ls)
    (hroom : addr + (imageBytes ls).length ≤ 256) :
    loadLines s addr line ls = .ok (placeBytes s addr (imageBytes ls)) := by
  simpa [loadLines] using loadLines_append hok hroom []

theorem launch_imageText {bytes : List Byte} (h : bytes.length ≤ 256) :
    launch (imageText bytes) = .ok (placeBytes State.reset 0 bytes) := by
  have hload := loadLines_ok (s := State.reset) (addr := 0) (line := 1) (noneMalformed_imageText bytes)
    (by rw [imageBytes_imageText]; omega)
  rwa [imageBytes_imageText] at hload

/-! ## The obligations -/

/-- The registers after reset: all zero but the stack pointer (R270). -/
theorem reset_x_toNat (r : RegIdx) : (State.reset.x r).toNat = if r.val = 7 then 0xF4 else 0 := by
  revert r
  decide

/-- Settles O52: the load places the image at address 0 and changes memory alone. -/
theorem launchStateHoldsTheImage : Obligations.LaunchStateHoldsTheImage := by
  intro bytes h
  have hlaunch := launch_imageText h
  have hmem (k : Nat) : (placeBytes State.reset 0 bytes).byteAt k = bytes.getD k 0#8 :=
    byteAt_placeBytes (by omega) k
  refine ⟨_, hlaunch, hmem, ?_⟩
  rw [loadLines_eq_with_mem hlaunch]
  exact ⟨reset_x_toNat, rfl, rfl, rfl, rfl, rfl⟩

/-- Settles O53: a line is its token, and a token is a number of base 2 or holds a character that is no digit. -/
theorem imageLinesAreBinaryTokens : Obligations.ImageLinesAreBinaryTokens := by
  intro left right rest hblank hrest
  obtain ⟨hl, hr⟩ := List.forall_mem_append.mp hblank
  constructor
  · refine readLine_of_trim_nil ?_
    simpa using trim_dropComment_token (token := []) hl blanks_nil ⟨nofun, nofun⟩ List.not_mem_nil hrest
  intro token hcomment hhead hlast hne
  have htrimmed : Trimmed token := ⟨fun c hc => by simpa [hc] using hhead, fun c hc => by simpa [hc] using hlast⟩
  have htrim := trim_dropComment_token hl hr htrimmed hcomment hrest
  have hnumber (h01 : ∀ c ∈ token, c = '0' ∨ c = '1') :=
    readLine_of_number htrim (spellsNumber_binaryValue hne h01)
  refine ⟨fun h01 hlt => (hnumber h01).trans (if_pos hlt), fun hbad => ?_⟩
  by_cases h01 : ∀ c ∈ token, c = '0' ∨ c = '1'
  · have hlarge : 256 ≤ binaryValue token :=
      hbad.resolve_left fun ⟨c, hc, hc01⟩ => (h01 c hc).elim hc01.1 hc01.2
    exact (hnumber h01).trans (if_neg (Nat.not_lt.mpr hlarge))
  · push Not at h01
    obtain ⟨c, hc, hc01⟩ := h01
    exact readLine_of_not_digits htrim hc hc01

/-- Settles O54: the lines before are passed with the count of lines and of bytes kept, and the line named is where
`loadLines` stops. -/
theorem loadErrorNamesTheFirstOffendingLine : Obligations.LoadErrorNamesTheFirstOffendingLine := by
  refine ⟨fun s before after l hok hroom hl => ?_, fun s ls hok hroom => ?_⟩ <;> rw [← length_imageBytes] at hroom
  · rw [loadLines_append hok (by omega), Nat.add_comm 1]
    obtain hbad | ⟨hfull, v, hv⟩ := hl
    · exact loadLines_malformed _ _ _ _ hbad
    · exact loadLines_full _ _ _ hv (by rw [length_imageBytes]; omega)
  · exact ⟨_, loadLines_ok hok (by omega)⟩

/-- Settles O5: each field of the reset state is the value R270 gives it. -/
theorem resetStateIsTheSpecs : Obligations.ResetStateIsTheSpecs :=
  ⟨reset_x_toNat, rfl, rfl, rfl, rfl, fun _ => rfl, rfl, rfl⟩

end Sys2Proof.Machine
